-- ==== Sys2Proof/Word.lean ====
section
/-! DEFINITION. The words of the block: bytes, 16-bit fields, the three-valued Decoder State and
a colour. Rules R8, R9, R11 and R14 of spec/00_scope.md and spec/10_state.md. -/

namespace Sys2Proof

/-- `u8` of rule R9: a data register or a buffer cell (rule R8: 8 bits). -/
abbrev Byte := BitVec 8

/-- `u16` of rule R9: a 16-bit field of a command. -/
abbrev Half := BitVec 16

/-- The Decoder State register `FSTATE` (rule R11): three values and no fourth (D11). -/
inductive FState where
  | normal
  | escaped
  | recovering
  deriving DecidableEq, Repr

/-- The 2-bit code of `FSTATE` as a hardware register (rule R11). -/
def FState.code : FState → BitVec 2
  | .normal => 0
  | .escaped => 1
  | .recovering => 2

/-- Three 8-bit components: the contents of the Last Color register file (rule R14) and the
parameter LASTCOLOR_RESET (rule R8). -/
structure Color where
  r : Byte
  g : Byte
  b : Byte
  deriving DecidableEq, Repr

end Sys2Proof
end

