-- ==== Sys2Proof/Config.lean ====
section
/-! DEFINITION. The parameters of the block (rule R8 of spec/00_scope.md): the constants, and the
record of the four parameters a model carries as configuration (spec/INDEX.md). -/

namespace Sys2Proof

/-- `CAP`: capacity of the accumulation buffer in bytes. -/
def cap : Nat := 512

theorem cap_eq : cap = 512 := rfl

/-- `DELIM`: the frame delimiter byte (rule R46). -/
def delim : Byte := 0xC0

/-- `ESC`: the escape marker byte (rule R46). -/
def esc : Byte := 0xDB

/-- `ESC_DELIM`: the escaped-delimiter code, expands to `delim` (rule R46). -/
def escDelim : Byte := 0xDC

/-- `ESC_ESC`: the escaped-escape code, expands to `esc` (rule R46). -/
def escEsc : Byte := 0xDD

/-- `WAVE_MAX`: the largest sample block of a Waveform frame. -/
def waveMax : Nat := 320

theorem waveMax_eq : waveMax = 320 := rfl

/-- The five assigned opcodes (rule R50). -/
def opJoypad : Byte := 0xFB
def opWaveform : Byte := 0xFC
def opText : Byte := 0xFD
def opRectangle : Byte := 0xFE
def opSystem : Byte := 0xFF

/-- `RECT9_RGB_BASE`: the offset of the red byte in a 9-byte Rectangle frame, one of 5 and 6
(rule R91, D7). -/
inductive RgbBase where
  | five
  | six
  deriving DecidableEq, Repr

/-- The offset itself. -/
def RgbBase.offset : RgbBase → Nat
  | .five => 5
  | .six => 6

/-- The parameters carried as configuration. Every one is fixed before reset and no operation of
the block writes it (rule R24). -/
structure Config where
  /-- `LASTCOLOR_RESET`, OPEN in the spec (rule R8, D4; assumption log 2). -/
  lastColorReset : Color
  /-- `RECT9_RGB_BASE` (rule R91, D7; assumption log 4). -/
  rect9RgbBase : RgbBase
  /-- `SOFT_RESET_CLEARS_COLOR` (rule R74, D3; assumption log 4). -/
  softResetClearsColor : Bool
  /-- `SYS_MIN_LEN` (rules R110 and R111, D6; assumption log 5). -/
  sysMinLen : Nat
  deriving DecidableEq, Repr

/-- The values of rule R8. DESIGN CHOICE (assumption log 2, unsafe): (0, 0, 0) for the OPEN
`LASTCOLOR_RESET`, the instantiation that D4 recommends. -/
def Config.default : Config where
  lastColorReset := ⟨0, 0, 0⟩
  rect9RgbBase := .five
  softResetClearsColor := true
  sysMinLen := 6

end Sys2Proof
end

