-- ==== Sys2Proof/Syntax.lean ====
section
/-! DEFINITION. The instructions: one constructor per row of spec/opcode_table.json, the eight
stream symbols of rule R48 (level S) and the fourteen frame rows of rules R50, R51 and R55 (level
F). An operand the block ignores is carried all the same, so that no byte of a frame is dropped. -/

namespace Sys2Proof

inductive Instr where
  /-- `N.END` (R61): delimiter in Normal. -/
  | nEnd
  /-- `N.ESC` (R62): escape marker in Normal. -/
  | nEsc
  /-- `N.DATA(b)` (R63): ordinary byte in Normal. -/
  | nData (b : Byte)
  /-- `E.DELIM` (R64): escaped delimiter. -/
  | eDelim
  /-- `E.ESC` (R65): escaped escape. -/
  | eEsc
  /-- `E.BAD(b)` (R66): any other byte after the escape marker. -/
  | eBad (b : Byte)
  /-- `R.END` (R67): delimiter in Recovering. -/
  | rEnd
  /-- `R.SKIP(b)` (R68): any other byte in Recovering. -/
  | rSkip (b : Byte)
  /-- `RECT12` (R90). -/
  | rect12 (x y w h : Half) (r g b : Byte)
  /-- `RECT9` (R91); `pad` is the byte no field covers. -/
  | rect9 (x y : Half) (r g b pad : Byte)
  /-- `RECT5` (R92). -/
  | rect5 (x y : Half)
  /-- `RECT.BAD` (R93); `rest` is the frame after its opcode. -/
  | rectBad (rest : List Byte)
  /-- `TEXT12` (R95); `t0 t1 t2` are the ignored offsets 9 to 11. -/
  | text12 (c : Byte) (x y : Half) (r g b t0 t1 t2 : Byte)
  /-- `TEXT.BAD` (R96). -/
  | textBad (rest : List Byte)
  /-- `WAVE` (R100). -/
  | wave (p1 p2 p3 : Byte) (samples : List Byte)
  /-- `WAVE.BAD` (R101). -/
  | waveBad (rest : List Byte)
  /-- `JPAD3` (R105); its two payload bytes are not decoded. -/
  | jpad3 (j0 j1 : Byte)
  /-- `JPAD.BAD` (R106). -/
  | jpadBad (rest : List Byte)
  /-- `SYS` (R110); `a1` to `a4` and `tail` are ignored. -/
  | sys (a1 a2 a3 a4 f : Byte) (tail : List Byte)
  /-- `SYS.SHORT` (R111). -/
  | sysShort (rest : List Byte)
  /-- `EMPTY` (R81): the zero-length frame. -/
  | empty
  /-- `UNKNOWN(op)` (R83): unassigned first byte. -/
  | unknown (op : Byte) (rest : List Byte)
  deriving DecidableEq, Repr

/-- Level F (rule R45): the instruction is a frame payload, run by the command decoder; otherwise
it is a stream symbol. -/
def Instr.isFrame : Instr → Bool
  | .nEnd => false
  | .nEsc => false
  | .nData _ => false
  | .eDelim => false
  | .eEsc => false
  | .eBad _ => false
  | .rEnd => false
  | .rSkip _ => false
  | .rect12 _ _ _ _ _ _ _ => true
  | .rect9 _ _ _ _ _ _ => true
  | .rect5 _ _ => true
  | .rectBad _ => true
  | .text12 _ _ _ _ _ _ _ _ _ => true
  | .textBad _ => true
  | .wave _ _ _ _ => true
  | .waveBad _ => true
  | .jpad3 _ _ => true
  | .jpadBad _ => true
  | .sys _ _ _ _ _ _ => true
  | .sysShort _ => true
  | .empty => true
  | .unknown _ _ => true

end Sys2Proof
end

