-- ==== Sys2Proof/WellFormed.lean ====
section
/-! DEFINITION. Which terms of Instr an encoding of spec/30_encoding.md stands for: the byte a
symbol's row excludes (rule R48), the lengths a shape or a rejection admits (rules R50, R51, R93,
R96, R101, R106, R110, R111) and the capacity of the buffer (rule R49). -/

namespace Sys2Proof

/-- A frame whose opcode is followed by `rest` fits the accumulation buffer (rule R49). -/
abbrev fits (rest : List Byte) : Prop := 1 + rest.length ≤ cap

/-- An assigned opcode (rule R50). -/
abbrev assigned (op : Byte) : Prop :=
  op = opRectangle ∨ op = opText ∨ op = opWaveform ∨ op = opJoypad ∨ op = opSystem

/-- The length a System frame must have to be accepted: `SYS_MIN_LEN`, and never less than 6, the
least length at which offset 5 exists (rule R111; assumption log 5). -/
abbrev Config.sysLen (c : Config) : Nat := max 6 c.sysMinLen

/-- Well-formed under the parameters `cfg`. -/
def Instr.wf (cfg : Config) : Instr → Bool
  | .nEnd => true
  | .nEsc => true
  | .nData b => decide (b ≠ delim ∧ b ≠ esc)
  | .eDelim => true
  | .eEsc => true
  | .eBad b => decide (b ≠ escDelim ∧ b ≠ escEsc)
  | .rEnd => true
  | .rSkip b => decide (b ≠ delim)
  | .rect12 _ _ _ _ _ _ _ => true
  | .rect9 _ _ _ _ _ _ => true
  | .rect5 _ _ => true
  | .rectBad rest =>
    decide (fits rest ∧ 1 + rest.length ≠ 5 ∧ 1 + rest.length ≠ 9 ∧ 1 + rest.length ≠ 12)
  | .text12 _ _ _ _ _ _ _ _ _ => true
  | .textBad rest => decide (fits rest ∧ 1 + rest.length ≠ 12)
  | .wave _ _ _ samples => decide (samples.length ≤ waveMax)
  | .waveBad rest => decide (fits rest ∧ (1 + rest.length < 4 ∨ 4 + waveMax < 1 + rest.length))
  | .jpad3 _ _ => true
  | .jpadBad rest => decide (fits rest ∧ 1 + rest.length ≠ 3)
  | .sys _ _ _ _ _ tail => decide (6 + tail.length ≤ cap ∧ cfg.sysLen ≤ 6 + tail.length)
  | .sysShort rest => decide (fits rest ∧ 1 + rest.length < cfg.sysLen)
  | .empty => true
  | .unknown op rest => decide (fits rest ∧ ¬ assigned op)

end Sys2Proof
end

