-- ==== Sys2Proof/Decode.lean ====
section
/-! DEFINITION. Decoding and encoding at both levels of spec/30_encoding.md: stream symbols (rule
R48) and frame payloads (rules R50 to R53), the sender's stuffing (rule R47) with FRAME and STREAM
(rule R58), and the reading of a word of spec/opcode_table.json. -/

namespace Sys2Proof

/-- An encoded instruction: a stream byte together with the mode that classifies it (level S), or
a whole de-stuffed frame payload, whose length is part of the encoding (level F; rules R45, R56). -/
inductive Code where
  | symbol (mode : FState) (b : Byte)
  | frame (payload : List Byte)
  deriving DecidableEq, Repr

/-- Why an encoded instruction is refused. -/
inductive DecodeError where
  /-- A payload above the capacity of the buffer: no frame of the block is this long (rule R49). -/
  | frameTooLong (len : Nat)
  deriving DecidableEq, Repr

/-- Little-endian assembly of a 16-bit field: `{hi, lo}` (rules R31, R52). -/
def u16 (lo hi : Byte) : Half := hi ++ lo

/-- The byte of a field stored at the lower offset. -/
def lowByte (v : Half) : Byte := v.extractLsb' 0 8

/-- The byte of a field stored at the higher offset. -/
def highByte (v : Half) : Byte := v.extractLsb' 8 8

/-! ### Level S -/

/-- The class of an input byte (rules R48 and R60). -/
def decodeSymbol (mode : FState) (b : Byte) : Instr :=
  match mode with
  | .normal => if b = delim then .nEnd else if b = esc then .nEsc else .nData b
  | .escaped => if b = escDelim then .eDelim else if b = escEsc then .eEsc else .eBad b
  | .recovering => if b = delim then .rEnd else .rSkip b

/-! ### Level F: `rest` is the frame after its opcode -/

/-- Rectangle shapes, selected by length (rules R51, R90 to R93). -/
def decodeRect (cfg : Config) (rest : List Byte) : Instr :=
  match rest with
  | [x0, x1, y0, y1, w0, w1, h0, h1, r, g, b] =>
    .rect12 (u16 x0 x1) (u16 y0 y1) (u16 w0 w1) (u16 h0 h1) r g b
  | [x0, x1, y0, y1, c5, c6, c7, c8] =>
    match cfg.rect9RgbBase with
    | .five => .rect9 (u16 x0 x1) (u16 y0 y1) c5 c6 c7 c8
    | .six => .rect9 (u16 x0 x1) (u16 y0 y1) c6 c7 c8 c5
  | [x0, x1, y0, y1] => .rect5 (u16 x0 x1) (u16 y0 y1)
  | other => .rectBad other

/-- Text, accepted at length 12 only (rules R51, R95, R96). -/
def decodeText (rest : List Byte) : Instr :=
  match rest with
  | [c, x0, x1, y0, y1, r, g, b, t0, t1, t2] =>
    .text12 c (u16 x0 x1) (u16 y0 y1) r g b t0 t1 t2
  | other => .textBad other

/-- Waveform, lengths 4 to 324 (rules R51, R100, R101). -/
def decodeWave (rest : List Byte) : Instr :=
  match rest with
  | p1 :: p2 :: p3 :: samples =>
    if samples.length ≤ waveMax then .wave p1 p2 p3 samples else .waveBad (p1 :: p2 :: p3 :: samples)
  | other => .waveBad other

/-- Joypad, accepted at length 3 only (rules R51, R105, R106). -/
def decodeJpad (rest : List Byte) : Instr :=
  match rest with
  | [j0, j1] => .jpad3 j0 j1
  | other => .jpadBad other

/-- System, from `SYS_MIN_LEN` up (rules R51, R110, R111): the font index is read only where the
frame has a byte at offset 5. -/
def decodeSys (cfg : Config) (rest : List Byte) : Instr :=
  match rest with
  | a1 :: a2 :: a3 :: a4 :: f :: tail =>
    if cfg.sysLen ≤ 6 + tail.length then .sys a1 a2 a3 a4 f tail
    else .sysShort (a1 :: a2 :: a3 :: a4 :: f :: tail)
  | other => .sysShort other

/-- The tests of `decode()` (rule R80): empty, then the opcode, then the length. -/
def decodeFrame (cfg : Config) (payload : List Byte) : Instr :=
  match payload with
  | [] => .empty
  | op :: rest =>
    if op = opRectangle then decodeRect cfg rest
    else if op = opText then decodeText rest
    else if op = opWaveform then decodeWave rest
    else if op = opJoypad then decodeJpad rest
    else if op = opSystem then decodeSys cfg rest
    else .unknown op rest

/-- The command decoder gives frame commands only (rule R45). -/
theorem decodeFrame_isFrame (cfg : Config) (payload : List Byte) :
    (decodeFrame cfg payload).isFrame = true := by
  unfold decodeFrame decodeRect decodeText decodeWave decodeJpad decodeSys
  repeat' split
  all_goals rfl

/-- The decoder of both levels, total: every encoded instruction is decoded, or refused by name. -/
def decode (cfg : Config) : Code → Except DecodeError Instr
  | .symbol mode b => .ok (decodeSymbol mode b)
  | .frame p => if p.length ≤ cap then .ok (decodeFrame cfg p) else .error (.frameTooLong p.length)

/-! ### The encoder -/

/-- The colour bytes of a 9-byte Rectangle frame and its one uncovered byte, in frame order from
offset 5 on (rule R91). -/
def rect9Tail (base : RgbBase) (r g b pad : Byte) : List Byte :=
  match base with
  | .five => [r, g, b, pad]
  | .six => [pad, r, g, b]

/-- The word of an instruction: the byte and mode of a symbol (rule R48), the payload of a command
(rules R51, R57). -/
def encode (cfg : Config) : Instr → Code
  | .nEnd => .symbol .normal delim
  | .nEsc => .symbol .normal esc
  | .nData b => .symbol .normal b
  | .eDelim => .symbol .escaped escDelim
  | .eEsc => .symbol .escaped escEsc
  | .eBad b => .symbol .escaped b
  | .rEnd => .symbol .recovering delim
  | .rSkip b => .symbol .recovering b
  | .rect12 x y w h r g b =>
    .frame [opRectangle, lowByte x, highByte x, lowByte y, highByte y,
      lowByte w, highByte w, lowByte h, highByte h, r, g, b]
  | .rect9 x y r g b pad =>
    .frame ([opRectangle, lowByte x, highByte x, lowByte y, highByte y]
      ++ rect9Tail cfg.rect9RgbBase r g b pad)
  | .rect5 x y => .frame [opRectangle, lowByte x, highByte x, lowByte y, highByte y]
  | .rectBad rest => .frame (opRectangle :: rest)
  | .text12 c x y r g b t0 t1 t2 =>
    .frame [opText, c, lowByte x, highByte x, lowByte y, highByte y, r, g, b, t0, t1, t2]
  | .textBad rest => .frame (opText :: rest)
  | .wave p1 p2 p3 samples => .frame (opWaveform :: p1 :: p2 :: p3 :: samples)
  | .waveBad rest => .frame (opWaveform :: rest)
  | .jpad3 j0 j1 => .frame [opJoypad, j0, j1]
  | .jpadBad rest => .frame (opJoypad :: rest)
  | .sys a1 a2 a3 a4 f tail => .frame (opSystem :: a1 :: a2 :: a3 :: a4 :: f :: tail)
  | .sysShort rest => .frame (opSystem :: rest)
  | .empty => .frame []
  | .unknown op rest => .frame (op :: rest)

/-! ### The wire -/

/-- `stuff_byte` of rule R47. -/
def stuffByte (v : Byte) : List Byte :=
  if v = delim then [esc, escDelim] else if v = esc then [esc, escEsc] else [v]

/-- `stuff` of rule R47. -/
def stuff : List Byte → List Byte
  | [] => []
  | v :: p => stuffByte v ++ stuff p

/-- `FRAME(p)` of rule R58: the stuffed payload and its delimiter. -/
def wireFrame (p : List Byte) : List Byte := stuff p ++ [delim]

/-- `STREAM(c1; c2; ...)` of rule R58. -/
def wireStream : List (List Byte) → List Byte
  | [] => []
  | p :: ps => wireFrame p ++ wireStream ps

/-! ### Words of spec/opcode_table.json (assumption log 10) -/

/-- The `n` lowest bytes of `w`, the least significant first. -/
def bytesOf : Nat → Nat → List Byte
  | 0, _ => []
  | n + 1, w => BitVec.ofNat 8 w :: bytesOf n (w / 256)

/-- What a one-byte word of the table stands for. DESIGN CHOICE (assumption log 10): the table
gives several rows the same byte, since mode and length select among them; the first row of the
table that fixes the byte is taken, a row of level F with operand bytes of zero up to its least
accepted length. A byte that no row fixes is `N.DATA`. -/
def tableByte (b : Byte) : Code :=
  if b = escDelim ∨ b = escEsc then .symbol .escaped b
  else if b = opRectangle ∨ b = opText then .frame (b :: List.replicate 11 0)
  else if b = opWaveform then .frame (b :: List.replicate 3 0)
  else if b = opJoypad then .frame (b :: List.replicate 2 0)
  else if b = opSystem then .frame (b :: List.replicate 5 0)
  else .symbol .normal b

/-- What a word of `nbits` bits stands for: no bits at all are the empty frame (row `EMPTY`), one
byte is read by `tableByte`, more bytes are the frame of exactly these bytes. -/
def tableCode (nbits w : Nat) : Option Code :=
  if nbits = 0 then some (.frame [])
  else if nbits = 8 then some (tableByte (BitVec.ofNat 8 w))
  else if nbits % 8 = 0 ∧ nbits / 8 ≤ cap then some (.frame (bytesOf (nbits / 8) w))
  else none

/-- The instruction the decoder reads from a word of the table, under the parameters of rule R8. -/
def decodeTableWord (nbits w : Nat) : Option Instr :=
  match tableCode nbits w with
  | none => none
  | some c =>
    match decode Config.default c with
    | .ok i => some i
    | .error _ => none

end Sys2Proof
end

