-- ==== Sys2Proof/Machine/State.lean ====
section
/-! DEFINITION. The state of the block (spec/10_state.md), its events (rules R20, R21), the host's
moves (rules R10, R23, R140), the reasons a step can stop, and the state after reset (rules R140,
R142 of spec/70_reset_and_hazards.md). -/

namespace Sys2Proof.Machine

/-- A diagnostic (rules R21, R122): one constructor per cause, with the data that cause records. -/
inductive Diag where
  /-- Cause 1 (R123). -/
  | framingViolation
  /-- Cause 2 (R124): `op` is absent for the empty frame. -/
  | malformedLength (op : Option Byte) (len : Nat)
  /-- Cause 3 (R125). -/
  | unknownOpcode (op : Byte) (len : Nat)
  /-- Cause 4 (R126). -/
  | overrun
  /-- Cause 5 (R127), a notice. -/
  | recovered
  deriving DecidableEq, Repr

/-- An output event: the four operations of the Command Sink (rule R20) and the diagnostics. -/
inductive Event where
  | rect (x y w h : Half) (r g b : Byte)
  | text (c : Byte) (x y : Half) (r g b : Byte)
  | wave (p1 p2 p3 : Byte) (samples : List Byte)
  | font (index : Byte)
  | diag (d : Diag)
  deriving DecidableEq, Repr

/-- A move of the host (rules R10, R22, R23; R140 for the hardware reset). -/
inductive HostMove where
  | byte (b : Byte)
  | softReset
  | hardReset
  deriving DecidableEq, Repr

/-- The accumulation buffer as (offset, byte) pairs, offsets rising, no entry equal to the byte an
unlisted offset reads as (rule R30). -/
abbrev Memory := List Host.Cell

/-- The state: `(FSTATE, WR, BUF, LC)` of rule R15 and the output trace of rule R7; the parameters
of rule R8, which no operation writes; and the host's moves not yet taken. -/
structure State where
  /-- `FSTATE`, the Decoder State (rule R11). -/
  fstate : FState
  /-- `WR`, the write cursor (rule R13); at most `cap` in every state a run reaches (rule R25). -/
  wr : Nat
  /-- `BUF`, the accumulation buffer, stale cells included (rules R12, R19). -/
  buf : Memory
  /-- `LC`, the Last Color register file (rule R14). -/
  lc : Color
  /-- The output trace, oldest event first (rule R7). -/
  trace : List Event
  /-- The parameters (rule R8; assumption log 3). -/
  params : Config
  /-- The host's moves not yet taken, next one first: the model's own field (assumption log 1). -/
  pending : List HostMove
  deriving DecidableEq, Repr

/-- Why the machine stops. Nothing in this block traps (rule R120): the diagnostics of rule R122 are
events of a run that goes on, not faults in this sense. -/
inductive Fault where
  /-- A frame would be read at offset `cap`, where there is no cell (rules R30, R37). Raised by
  `N.END` alone, when `WR` is above `cap`, which is so in no state a run reaches. Safe: the machine
  stops (assumption log 7). -/
  | absentCell (offset : Nat)
  deriving DecidableEq, Repr

/-- Why an instruction is turned away. -/
inductive Refusal where
  /-- No meaning yet. Safe. Raised by no arm of exec. -/
  | notModelled (mnemonic : String)
  deriving DecidableEq, Repr

/-- The block under the parameters `cfg` right after hardware reset, as power-on leaves it (rules
R140, R142). The cells of `BUF` are unspecified: nothing is listed (assumption log 6). -/
def State.resetWith (cfg : Config) : State where
  fstate := .normal
  wr := 0
  buf := []
  lc := cfg.lastColorReset
  trace := []
  params := cfg
  pending := []

/-- The machine right after reset, with the parameter values of rule R8. -/
def State.reset : State := State.resetWith Config.default

end Sys2Proof.Machine
end

