-- ==== Sys2Proof/Machine/Ops.lean ====
section
/-! DEFINITION. The named operations over buffer and registers: one-byte loads and stores of `BUF`
(rules R30 to R37), the register writes, emitting an event (rule R7), raising a fault and recovering
from one (rules R121, R122, R130, R131), the append (rule R71), and the two resets (rules R74,
R140). -/

namespace Sys2Proof.Machine

/-! ### The buffer -/

/-- What an unlisted offset reads as. DESIGN CHOICE (assumption log 6): the spec gives the cells no
reset contents, and no rule reads a cell that has not been written since the last clear. -/
abbrev unwrittenByte : Byte := 0x00

/-- One byte of the buffer. -/
def Memory.read (m : Memory) (a : Nat) : Byte :=
  match m with
  | [] => unwrittenByte
  | (k, v) :: rest => if k = a then v else Memory.read rest a

/-- Remove what is listed at an offset. -/
def Memory.erase (m : Memory) (a : Nat) : Memory :=
  match m with
  | [] => []
  | (k, v) :: rest => if k = a then Memory.erase rest a else (k, v) :: Memory.erase rest a

/-- List a byte at an offset, before the first greater one. -/
def Memory.insert (m : Memory) (a : Nat) (v : Byte) : Memory :=
  match m with
  | [] => [(a, v)]
  | (k, u) :: rest => if a < k then (a, v) :: (k, u) :: rest else (k, u) :: Memory.insert rest a v

/-- Store one byte, keeping the canonical form. -/
def Memory.write (m : Memory) (a : Nat) (v : Byte) : Memory :=
  if v = unwrittenByte then Memory.erase m a else Memory.insert (Memory.erase m a) a v

/-- The canonical form above the offset `low`: offsets rise, exist (rule R30), and no entry holds
the byte an unlisted offset reads as. -/
def Memory.wfFrom (low : Nat) (m : Memory) : Bool :=
  match m with
  | [] => true
  | (k, v) :: rest =>
    decide (low ≤ k) && decide (k < cap) && decide (v ≠ unwrittenByte) && Memory.wfFrom (k + 1) rest

/-- The canonical form of the buffer. -/
def Memory.wf (m : Memory) : Bool := Memory.wfFrom 0 m

/-- Store a sequence of bytes at rising offsets. -/
def Memory.writeAll (m : Memory) (a : Nat) : List Byte → Memory
  | [] => m
  | v :: vs => Memory.writeAll (Memory.write m a v) (a + 1) vs

/-! ### Register writes -/

/-- `FSTATE <- f`. -/
def State.setFstate (s : State) (f : FState) : State := { s with fstate := f }

/-- `WR <- n`. -/
def State.setWr (s : State) (n : Nat) : State := { s with wr := n }

/-- `LC <- c`, all three registers at once (rule R9). -/
def State.setLc (s : State) (c : Color) : State := { s with lc := c }

/-- `MemWrite(a, 1, v)` (rule R9). -/
def State.store (s : State) (a : Nat) (v : Byte) : State := { s with buf := Memory.write s.buf a v }

/-- The host's next move is taken. -/
def State.setPending (s : State) (moves : List HostMove) : State := { s with pending := moves }

/-- Append an event to the output trace (rules R7, R9). -/
def State.emit (s : State) (e : Event) : State := { s with trace := s.trace ++ [e] }

/-- Empty the output trace, as a hardware reset does (rule R142). -/
def State.clearTrace (s : State) : State := { s with trace := [] }

/-- `clear()`: `WR <- 0`, and no cell is written (rule R36). -/
def State.clear (s : State) : State := s.setWr 0

/-! ### Faults and recovery -/

/-- The state change of a cause (rule R122). -/
def applyCause (d : Diag) (s : State) : State :=
  match d with
  | .framingViolation => s.clear.setFstate .recovering
  | .malformedLength _ _ => s
  | .unknownOpcode _ _ => s
  | .overrun => s.clear.setFstate .recovering
  | .recovered => s.clear.setFstate .normal

/-- Taking a fault (rules R121, R130): the diagnostic is emitted, then the cause's state change is
made. Nothing is saved and control goes nowhere. -/
def raise (d : Diag) (s : State) : State := applyCause d (s.emit (.diag d))

/-- The return from a fault (rules R67, R131): the block is back in `(Normal, 0)` and the recovery
is reported. -/
def recover (s : State) : State := raise .recovered s

/-- The append of one de-stuffed byte, bounds-checked (rules R35, R69 to R71, R150). -/
def append (v : Byte) (s : State) : State :=
  if s.wr < cap then ((s.store s.wr v).setWr (s.wr + 1)).setFstate .normal
  else raise .overrun s

/-! ### Resets -/

/-- `soft_reset()` (rule R74). -/
def softReset (s : State) : State :=
  if s.params.softResetClearsColor then
    ((s.setFstate .normal).setWr 0).setLc s.params.lastColorReset
  else (s.setFstate .normal).setWr 0

/-- `hw_reset()` (rules R140, R142): `LC` is always initialised and the trace is empty afterwards.
The cells are not written; the host's further moves stay (assumption logs 8 and 9). -/
def hardReset (s : State) : State :=
  (((s.setFstate .normal).setWr 0).setLc s.params.lastColorReset).clearTrace

/-! ### Sequencing -/

/-- Go on with `f` where a meaning gave a next state. -/
def andThen (o : Host.Outcome State Fault Refusal) (f : State → Host.Outcome State Fault Refusal) :
    Host.Outcome State Fault Refusal :=
  match o with
  | .next s => f s
  | .fault r => .fault r
  | .refused r => .refused r

end Sys2Proof.Machine
end

