-- ==== Sys2Proof/Machine/Operands.lean ====
section
/-! DEFINITION. The operand forms: `MemRead` of one and of two bytes (rules R9, R31, R33), the frame
the decoder is given (rules R37, R49), the sample block (rule R100), the colour operand that Last
Color supplies (rule R92) and the constant default size (rule R52). -/

namespace Sys2Proof.Machine

/-- `MemRead(a, 1)`. -/
def memRead1 (s : State) (a : Nat) : Byte := Memory.read s.buf a

/-- `MemRead(a, 2)`: two one-byte loads, little-endian. -/
def memRead2 (s : State) (a : Nat) : Half := u16 (memRead1 s a) (memRead1 s (a + 1))

/-- `BUF[a .. a+n-1]`, in buffer order. -/
def memReadBlock (s : State) (a n : Nat) : List Byte := (List.range n).map fun i => memRead1 s (a + i)

/-- The frame at dispatch: `BUF[0 .. WR-1]`. -/
def State.frame (s : State) : List Byte := memReadBlock s 0 s.wr

/-- The default width and height of `RECT9` and `RECT5`, not decoded from the frame. -/
abbrev unitSize : Half := 1

/-- `LC.r` as an operand. -/
def lastRed (s : State) : Byte := s.lc.r

/-- `LC.g` as an operand. -/
def lastGreen (s : State) : Byte := s.lc.g

/-- `LC.b` as an operand. -/
def lastBlue (s : State) : Byte := s.lc.b

end Sys2Proof.Machine
end

