-- ==== Sys2Proof/Machine/Flags.lean ====
section
/-! DEFINITION. Conditions. The block has no status flags, condition codes or predicates (rule R17):
what stands here is evaluated inside a step and kept nowhere. -/

namespace Sys2Proof.Machine

/-- The frame to be dispatched lies inside the buffer (rules R25 (a), R37). -/
def frameExists (s : State) : Bool := decide (s.wr ≤ cap)

/-- A delimiter in Normal: the one byte that dispatches a frame (rule R61). -/
def dispatches (mode : FState) (b : Byte) : Bool := decide (mode = .normal ∧ b = delim)

end Sys2Proof.Machine
end

