-- ==== Sys2Proof/Machine/Joypad.lean ====
section
/-! DEFINITION. The Joypad command, opcode 0xFB (spec/45_joypad.md). -/

namespace Sys2Proof.Machine

/-- `JPAD3` (rule R105): accepted, no event, no state change. -/
def execJpad3 (_j0 _j1 : Byte) (s : State) : Host.Outcome State Fault Refusal := .next s

/-- `JPAD.BAD` (rule R106). -/
def execJpadBad (rest : List Byte) (s : State) : Host.Outcome State Fault Refusal :=
  .next (raise (.malformedLength (some opJoypad) (1 + rest.length)) s)

end Sys2Proof.Machine
end

