-- ==== Sys2Proof/Machine/Rectangle.lean ====
section
/-! DEFINITION. The Rectangle commands, opcode 0xFE (spec/42_rectangle.md): the only family that
touches Last Color. -/

namespace Sys2Proof.Machine

/-- A rectangle that carries its colour sets Last Color and is drawn (rules R90, R91). -/
def drawColored (x y w h : Half) (r g b : Byte) (s : State) : State :=
  (s.setLc ⟨r, g, b⟩).emit (.rect x y w h r g b)

/-- `RECT12` (rule R90). -/
def execRect12 (x y w h : Half) (r g b : Byte) (s : State) : Host.Outcome State Fault Refusal :=
  .next (drawColored x y w h r g b s)

/-- `RECT9` (rule R91); the byte no field covers is ignored (rule R54). -/
def execRect9 (x y : Half) (r g b _pad : Byte) (s : State) : Host.Outcome State Fault Refusal :=
  .next (drawColored x y unitSize unitSize r g b s)

/-- `RECT5` (rule R92). -/
def execRect5 (x y : Half) (s : State) : Host.Outcome State Fault Refusal :=
  .next (s.emit (.rect x y unitSize unitSize (lastRed s) (lastGreen s) (lastBlue s)))

/-- `RECT.BAD` (rule R93). -/
def execRectBad (rest : List Byte) (s : State) : Host.Outcome State Fault Refusal :=
  .next (raise (.malformedLength (some opRectangle) (1 + rest.length)) s)

end Sys2Proof.Machine
end

