-- ==== Sys2Proof/Machine/System.lean ====
section
/-! DEFINITION. The System command, opcode 0xFF (spec/46_system.md). -/

namespace Sys2Proof.Machine

/-- `SYS` (rule R110): the block keeps no copy of the font index, and every other
payload byte is ignored (rule R54). -/
def execSys (_a1 _a2 _a3 _a4 f : Byte) (_tail : List Byte) (s : State) :
    Host.Outcome State Fault Refusal :=
  .next (s.emit (.font f))

/-- `SYS.SHORT` (rule R111). -/
def execSysShort (rest : List Byte) (s : State) : Host.Outcome State Fault Refusal :=
  .next (raise (.malformedLength (some opSystem) (1 + rest.length)) s)

end Sys2Proof.Machine
end

