-- ==== Sys2Proof/Machine/Text.lean ====
section
/-! DEFINITION. The Text command, opcode 0xFD (spec/43_text.md). -/

namespace Sys2Proof.Machine

/-- `TEXT12` (rule R95): Last Color is neither read nor written, and the last three
bytes are ignored (rule R54). -/
def execText12 (c : Byte) (x y : Half) (r g b _t0 _t1 _t2 : Byte) (s : State) :
    Host.Outcome State Fault Refusal :=
  .next (s.emit (.text c x y r g b))

/-- `TEXT.BAD` (rule R96). -/
def execTextBad (rest : List Byte) (s : State) : Host.Outcome State Fault Refusal :=
  .next (raise (.malformedLength (some opText) (1 + rest.length)) s)

end Sys2Proof.Machine
end

