-- ==== Sys2Proof/Machine/Waveform.lean ====
section
/-! DEFINITION. The Waveform command, opcode 0xFC (spec/44_waveform.md). -/

namespace Sys2Proof.Machine

/-- `WAVE` (rule R100): parameters and samples are passed through, by value (rule R44). -/
def execWave (p1 p2 p3 : Byte) (samples : List Byte) (s : State) :
    Host.Outcome State Fault Refusal :=
  .next (s.emit (.wave p1 p2 p3 samples))

/-- `WAVE.BAD` (rule R101). -/
def execWaveBad (rest : List Byte) (s : State) : Host.Outcome State Fault Refusal :=
  .next (raise (.malformedLength (some opWaveform) (1 + rest.length)) s)

end Sys2Proof.Machine
end

