-- ==== Sys2Proof/Machine/Command.lean ====
section
/-! DEFINITION. The command decoder (spec/41_command_dispatch.md): the empty frame, unassigned
opcodes, and running the one command a frame is decoded to. -/

namespace Sys2Proof.Machine

/-- `EMPTY` (rule R81): the opcode is absent and no cell is read. -/
def execEmpty (s : State) : Host.Outcome State Fault Refusal :=
  .next (raise (.malformedLength none 0) s)

/-- `UNKNOWN(op)` (rule R83). -/
def execUnknown (op : Byte) (rest : List Byte) (s : State) : Host.Outcome State Fault Refusal :=
  .next (raise (.unknownOpcode op (1 + rest.length)) s)

/-- The meaning of a frame command. The proof argument leaves the stream symbols out. -/
def execFrame (i : Instr) (hf : i.isFrame = true) (s : State) : Host.Outcome State Fault Refusal :=
  match i, hf with
  | .rect12 x y w h r g b, _ => execRect12 x y w h r g b s
  | .rect9 x y r g b pad, _ => execRect9 x y r g b pad s
  | .rect5 x y, _ => execRect5 x y s
  | .rectBad rest, _ => execRectBad rest s
  | .text12 c x y r g b t0 t1 t2, _ => execText12 c x y r g b t0 t1 t2 s
  | .textBad rest, _ => execTextBad rest s
  | .wave p1 p2 p3 samples, _ => execWave p1 p2 p3 samples s
  | .waveBad rest, _ => execWaveBad rest s
  | .jpad3 j0 j1, _ => execJpad3 j0 j1 s
  | .jpadBad rest, _ => execJpadBad rest s
  | .sys a1 a2 a3 a4 f tail, _ => execSys a1 a2 a3 a4 f tail s
  | .sysShort rest, _ => execSysShort rest s
  | .empty, _ => execEmpty s
  | .unknown op rest, _ => execUnknown op rest s

/-- `decode()` (rule R80): the command decoder run on `BUF[0 .. WR-1]`. It touches neither `FSTATE`
nor `WR`. -/
def runDecoder (s : State) : Host.Outcome State Fault Refusal :=
  if frameExists s then
    execFrame (decodeFrame s.params s.frame) (decodeFrame_isFrame s.params s.frame) s
  else .fault (.absentCell cap)

end Sys2Proof.Machine
end

