-- ==== Sys2Proof/Machine/Deframer.lean ====
section
/-! DEFINITION. The eight stream symbols (spec/40_deframer.md). A symbol's meaning assumes the mode
its row names; the step selects it in no other (rule R60; assumption log 13). -/

namespace Sys2Proof.Machine

/-- `N.END` (rule R61): dispatch, then clear; the decoder sees the frame before the clear. -/
def execNEnd (s : State) : Host.Outcome State Fault Refusal :=
  andThen (runDecoder s) fun t => .next (t.clear.setFstate .normal)

/-- `N.ESC` (rule R62): no buffer write. -/
def execNEsc (s : State) : Host.Outcome State Fault Refusal := .next (s.setFstate .escaped)

/-- `N.DATA(b)` (rules R63, R69). -/
def execNData (b : Byte) (s : State) : Host.Outcome State Fault Refusal := .next (append b s)

/-- `E.DELIM` (rules R64, R70): the literal 0xC0 is data. -/
def execEDelim (s : State) : Host.Outcome State Fault Refusal := .next (append delim s)

/-- `E.ESC` (rules R65, R70): the literal 0xDB is data. -/
def execEEsc (s : State) : Host.Outcome State Fault Refusal := .next (append esc s)

/-- `E.BAD(b)` (rule R66): the byte is not stored and not looked at again. -/
def execEBad (_b : Byte) (s : State) : Host.Outcome State Fault Refusal :=
  .next (raise .framingViolation s)

/-- `R.END` (rule R67): no frame is dispatched. -/
def execREnd (s : State) : Host.Outcome State Fault Refusal := .next (recover s)

/-- `R.SKIP(b)` (rule R68): nothing. -/
def execRSkip (_b : Byte) (s : State) : Host.Outcome State Fault Refusal := .next s

end Sys2Proof.Machine
end

