-- ==== Sys2Proof/Machine/Dispatch.lean ====
section
/-! DEFINITION. One arm per row of spec/opcode_table.json. -/

namespace Sys2Proof.Machine

def exec (i : Instr) (s : State) : Host.Outcome State Fault Refusal :=
  match i with
  -- level S, spec/40_deframer.md
  | .nEnd => Sys2Proof.Machine.execNEnd s
  | .nEsc => Sys2Proof.Machine.execNEsc s
  | .nData b => Sys2Proof.Machine.execNData b s
  | .eDelim => Sys2Proof.Machine.execEDelim s
  | .eEsc => Sys2Proof.Machine.execEEsc s
  | .eBad b => Sys2Proof.Machine.execEBad b s
  | .rEnd => Sys2Proof.Machine.execREnd s
  | .rSkip b => Sys2Proof.Machine.execRSkip b s
  -- level F, spec/42_rectangle.md to spec/46_system.md and spec/41_command_dispatch.md
  | .rect12 x y w h r g b => Sys2Proof.Machine.execRect12 x y w h r g b s
  | .rect9 x y r g b pad => Sys2Proof.Machine.execRect9 x y r g b pad s
  | .rect5 x y => Sys2Proof.Machine.execRect5 x y s
  | .rectBad rest => Sys2Proof.Machine.execRectBad rest s
  | .text12 c x y r g b t0 t1 t2 => Sys2Proof.Machine.execText12 c x y r g b t0 t1 t2 s
  | .textBad rest => Sys2Proof.Machine.execTextBad rest s
  | .wave p1 p2 p3 samples => Sys2Proof.Machine.execWave p1 p2 p3 samples s
  | .waveBad rest => Sys2Proof.Machine.execWaveBad rest s
  | .jpad3 j0 j1 => Sys2Proof.Machine.execJpad3 j0 j1 s
  | .jpadBad rest => Sys2Proof.Machine.execJpadBad rest s
  | .sys a1 a2 a3 a4 f tail => Sys2Proof.Machine.execSys a1 a2 a3 a4 f tail s
  | .sysShort rest => Sys2Proof.Machine.execSysShort rest s
  | .empty => Sys2Proof.Machine.execEmpty s
  | .unknown op rest => Sys2Proof.Machine.execUnknown op rest s

end Sys2Proof.Machine
end

