-- ==== Sys2Proof/Machine/Stream.lean ====
section
/-! DEFINITION. One byte, a byte sequence, and a move of the host (rules R6, R60, R72). -/

namespace Sys2Proof.Machine

/-- `step(b)` (rule R60): the symbol is selected by `FSTATE` and the byte, and run. -/
def stepByte (b : Byte) (s : State) : Host.Outcome State Fault Refusal :=
  exec (decodeSymbol s.fstate b) s

/-- `process(bytes)` (rule R72): one step per byte, in order. -/
def process : List Byte → State → Host.Outcome State Fault Refusal
  | [], s => .next s
  | b :: bs, s => andThen (stepByte b s) (process bs)

/-- A move of the host (rules R10, R23, R140). -/
def takeMove (m : HostMove) (s : State) : Host.Outcome State Fault Refusal :=
  match m with
  | .byte b => stepByte b s
  | .softReset => .next (softReset s)
  | .hardReset => .next (hardReset s)

/-- The next pending move is taken; with none pending the block waits and nothing changes (rule
R78; assumption log 1). -/
def takePending (s : State) : Host.Outcome State Fault Refusal :=
  match s.pending with
  | [] => .next s
  | m :: moves => takeMove m (s.setPending moves)

/-- An encoded instruction placed so that the next step runs it (assumption logs 10, 11): a symbol
is the next byte, in the mode that classifies it; a command's payload stands in the buffer and the
next byte is the delimiter that dispatches it. -/
def placeCode (c : Code) (s : State) : State :=
  match c with
  | .symbol mode b => (s.setFstate mode).setPending (.byte b :: s.pending)
  | .frame p =>
    (({ s with buf := Memory.writeAll s.buf 0 p }.setWr p.length).setFstate .normal).setPending
      (.byte delim :: s.pending)

end Sys2Proof.Machine
end

