-- ==== Sys2Proof/Machine/Step.lean ====
section
/-! DEFINITION. One step of the block: the next move of the host is taken. -/

namespace Sys2Proof.Machine

/-- One step (rules R6, R60). -/
def step (s : State) : Host.Outcome State Fault Refusal := takePending s

/-- A word of spec/opcode_table.json placed where the next step takes it (assumption logs 10, 11).
A word that is no whole number of bytes, or longer than the buffer, stands for nothing. -/
def State.withFetchWord (s : State) (nbits w : Nat) : State :=
  match tableCode nbits w with
  | some c => placeCode c s
  | none => s

end Sys2Proof.Machine
end

