-- ==== Sys2Proof/Machine/Signals.lean ====
section
/-! DEFINITION. The signal-level interface of rule R27 (spec/10_state.md), a layer around State: one
`cycle` is one rising edge of `clk`. No rule of the abstract machine depends on it. Rule R27 fixes no
cycle count; the model registers an event, so that it is offered from the cycle after the byte that
caused it (DESIGN CHOICE, assumption log 12). A don't-care wire carries `none`; `diag_cause` is never
one, since rule R122 gives it a code where nothing is reported. -/

namespace Sys2Proof.Machine

/-- The inputs sampled at one rising edge. -/
structure SignalIn where
  rst : Bool
  softReset : Bool
  inValid : Bool
  inData : Byte
  cmdReady : Bool
  smpReady : Bool
  deriving DecidableEq, Repr

/-- The outputs driven in one cycle. -/
structure SignalOut where
  inReady : Bool
  cmdValid : Bool
  cmdKind : Option (BitVec 2)
  cmdX : Option Half
  cmdY : Option Half
  cmdW : Option Half
  cmdH : Option Half
  cmdR : Option Byte
  cmdG : Option Byte
  cmdB : Option Byte
  cmdC : Option Byte
  cmdN : Option (BitVec 9)
  smpValid : Bool
  smpData : Option Byte
  smpLast : Bool
  diagValid : Bool
  diagCause : BitVec 3
  diagOpv : Bool
  diagOp : Option Byte
  diagLen : Option (BitVec 10)
  deriving DecidableEq, Repr

/-- What of a dispatched frame is still to be handed over. -/
inductive Delivery where
  /-- Nothing: input is taken. -/
  | idle
  /-- A sink event is offered until the sink takes it. -/
  | command (e : Event)
  /-- The sample beats of a taken WAVE command: the one offered, and those after it. -/
  | samples (beat : Byte) (rest : List Byte)
  /-- The diagnostic of a dropped frame is reported this cycle. -/
  | report
  deriving DecidableEq, Repr

/-- The block with what its interface holds. -/
structure SignalState where
  /-- `FSTATE`, `WR`, `BUF`, `LC`; `WR` keeps the frame's length until its delivery ends. -/
  core : State
  delivery : Delivery
  /-- A soft reset that arrived while a frame was being delivered. -/
  held : Bool
  /-- The diagnostic reported this cycle. -/
  report : Option Diag
  deriving DecidableEq, Repr

/-- The interface after hardware reset. -/
def SignalState.reset : SignalState := ⟨State.reset, .idle, false, none⟩

/-- The state the abstract machine is in: a frame under delivery is already cleared (rule R61). -/
def SignalState.abstract (σ : SignalState) : State :=
  match σ.delivery with
  | .idle => σ.core
  | .command _ => σ.core.clear
  | .samples _ _ => σ.core.clear
  | .report => σ.core.clear

/-! ### Port encoding -/

/-- The code of a cause (rule R122). -/
def Diag.code : Diag → BitVec 3
  | .framingViolation => 1
  | .malformedLength _ _ => 2
  | .unknownOpcode _ _ => 3
  | .overrun => 4
  | .recovered => 5

/-- What `diag_cause` carries: the cause of the diagnostic reported, and 0, "no event", where there is
none (rules R27, R122). -/
def causeCode : Option Diag → BitVec 3
  | none => 0
  | some d => d.code

/-- The opcode byte a diagnostic records (rule R122). -/
def Diag.opcode : Diag → Option Byte
  | .framingViolation => none
  | .malformedLength op _ => op
  | .unknownOpcode op _ => some op
  | .overrun => none
  | .recovered => none

/-- The frame length a diagnostic records (rule R122). -/
def Diag.length : Diag → Option Nat
  | .framingViolation => none
  | .malformedLength _ len => some len
  | .unknownOpcode _ len => some len
  | .overrun => none
  | .recovered => none

/-- Every output at rest: nothing valid, and cause code 0. -/
def quietOut (ready : Bool) : SignalOut where
  inReady := ready
  cmdValid := false
  cmdKind := none
  cmdX := none
  cmdY := none
  cmdW := none
  cmdH := none
  cmdR := none
  cmdG := none
  cmdB := none
  cmdC := none
  cmdN := none
  smpValid := false
  smpData := none
  smpLast := false
  diagValid := false
  diagCause := causeCode none
  diagOpv := false
  diagOp := none
  diagLen := none

/-- A sink event on the command port (rule R27, D18). A diagnostic is no command. -/
def driveCommand (e : Event) (o : SignalOut) : SignalOut :=
  match e with
  | .rect x y w h r g b =>
    { o with cmdValid := true, cmdKind := some 0, cmdX := some x, cmdY := some y, cmdW := some w,
             cmdH := some h, cmdR := some r, cmdG := some g, cmdB := some b }
  | .text c x y r g b =>
    { o with cmdValid := true, cmdKind := some 1, cmdX := some x, cmdY := some y, cmdR := some r,
             cmdG := some g, cmdB := some b, cmdC := some c }
  | .wave p1 p2 p3 samples =>
    { o with cmdValid := true, cmdKind := some 2, cmdR := some p1, cmdG := some p2, cmdB := some p3,
             cmdN := some (BitVec.ofNat 9 samples.length) }
  | .font f => { o with cmdValid := true, cmdKind := some 3, cmdC := some f }
  | .diag _ => o

/-- A diagnostic on the diagnostics port. -/
def driveDiag (d : Diag) (o : SignalOut) : SignalOut :=
  { o with diagValid := true, diagCause := causeCode (some d), diagOpv := d.opcode.isSome,
           diagOp := d.opcode, diagLen := d.length.map (BitVec.ofNat 10) }

/-! ### One cycle -/

/-- A soft reset is asked for, now or since a delivery began. -/
def softResetAsked (i : SignalIn) (σ : SignalState) : Bool := i.softReset || σ.held

/-- The soft reset is performed in this cycle: no frame is under delivery. -/
def softResetTaken (i : SignalIn) (σ : SignalState) : Bool :=
  !i.rst && softResetAsked i σ && decide (σ.delivery = .idle)

/-- `in_ready`. -/
def inReady (i : SignalIn) (σ : SignalState) : Bool :=
  !i.rst && !softResetAsked i σ && decide (σ.delivery = .idle)

/-- The byte is transferred in this cycle. -/
def byteTaken (i : SignalIn) (σ : SignalState) : Bool := i.inValid && inReady i σ

/-- The outputs of this cycle. While `rst` is 1 nothing else happens. -/
def outputs (i : SignalIn) (σ : SignalState) : SignalOut :=
  if i.rst then quietOut false
  else
    let reported := match σ.report with
      | some d => driveDiag d (quietOut (inReady i σ))
      | none => quietOut (inReady i σ)
    match σ.delivery with
    | .idle => reported
    | .command e => driveCommand e reported
    | .samples beat rest =>
      { reported with smpValid := true, smpData := some beat, smpLast := rest.isEmpty }
    | .report => reported

/-- The event a step added to the trace; rule R75: there is at most one. -/
def newEvent (before after : State) : Option Event := (after.trace.drop before.trace.length).head?

/-- After a byte: the event, if any, is to be delivered. `WR` is set to 0 only when the delivery of a
dispatched frame ends. -/
def startDelivery (dispatched : Bool) (before after : State) : SignalState :=
  match newEvent before after with
  | none => ⟨after, .idle, false, none⟩
  | some (.diag d) =>
    if dispatched then ⟨after.setWr before.wr, .report, false, some d⟩
    else ⟨after, .idle, false, some d⟩
  | some e => ⟨after.setWr before.wr, .command e, false, none⟩

/-- The delivery of a frame ends. -/
def endDelivery (held : Bool) (σ : SignalState) : SignalState := ⟨σ.core.clear, .idle, held, none⟩

/-- The next beat of a sample block, or the end of its delivery. -/
def nextBeat (held : Bool) (block : List Byte) (σ : SignalState) : SignalState :=
  match block with
  | [] => endDelivery held σ
  | v :: vs => ⟨σ.core, .samples v vs, held, none⟩

/-- The sink has taken the command: the beats of a WAVE follow (rule R44), or nothing. -/
def afterCommand (held : Bool) (e : Event) (σ : SignalState) : SignalState :=
  match e with
  | .rect _ _ _ _ _ _ _ => endDelivery held σ
  | .text _ _ _ _ _ _ => endDelivery held σ
  | .wave _ _ _ block => nextBeat held block σ
  | .font _ => endDelivery held σ
  | .diag _ => endDelivery held σ

/-- A byte transferred: `step(in_data)` is performed. -/
def takeByte (b : Byte) (σ : SignalState) : Host.Outcome SignalState Fault Refusal :=
  match stepByte b σ.core with
  | .next t => .next (startDelivery (dispatches σ.core.fstate b) σ.core t)
  | .fault r => .fault r
  | .refused r => .refused r

/-- One cycle: hardware reset over soft reset over a byte (rule R129 (a), D13). -/
def cycle (i : SignalIn) (σ : SignalState) : Host.Outcome SignalState Fault Refusal :=
  if i.rst then .next ⟨hardReset σ.core, .idle, false, none⟩
  else
    match σ.delivery with
    | .idle =>
      if softResetAsked i σ then .next ⟨softReset σ.core, .idle, false, none⟩
      else if i.inValid then takeByte i.inData σ
      else .next ⟨σ.core, .idle, false, none⟩
    | .command e =>
      if i.cmdReady then .next (afterCommand (softResetAsked i σ) e σ)
      else .next ⟨σ.core, .command e, softResetAsked i σ, none⟩
    | .samples beat rest =>
      if i.smpReady then .next (nextBeat (softResetAsked i σ) rest σ)
      else .next ⟨σ.core, .samples beat rest, softResetAsked i σ, none⟩
    | .report => .next (endDelivery (softResetAsked i σ) σ)

end Sys2Proof.Machine
end

