-- ==== Sys2Proof/Safety.lean ====
section
/-! DEFINITION. What counts as a legal state and a safe run: the invariants of rule R25
(spec/10_state.md), the ranges rule R20 gives the events, and a run that never stops (rule R120). -/

namespace Sys2Proof

/-- The colour a command gives Last Color, if any (rules R14, R94). -/
def Instr.setsColor : Instr → Option Color
  | .rect12 _ _ _ _ r g b => some ⟨r, g, b⟩
  | .rect9 _ _ r g b _ => some ⟨r, g, b⟩
  | .nEnd => none
  | .nEsc => none
  | .nData _ => none
  | .eDelim => none
  | .eEsc => none
  | .eBad _ => none
  | .rEnd => none
  | .rSkip _ => none
  | .rect5 _ _ => none
  | .rectBad _ => none
  | .text12 _ _ _ _ _ _ _ _ _ => none
  | .textBad _ => none
  | .wave _ _ _ _ => none
  | .waveBad _ => none
  | .jpad3 _ _ => none
  | .jpadBad _ => none
  | .sys _ _ _ _ _ _ => none
  | .sysShort _ => none
  | .empty => none
  | .unknown _ _ => none

end Sys2Proof

namespace Sys2Proof.Machine

/-- The ranges of an event's variable parts: at most 320 samples (rule R20), a frame length of at most
`cap` (rule R49), and the opcode absent only for the empty frame (rule R21). -/
def Event.Legal : Event → Prop
  | .rect _ _ _ _ _ _ _ => True
  | .text _ _ _ _ _ _ => True
  | .wave _ _ _ samples => samples.length ≤ waveMax
  | .font _ => True
  | .diag (.malformedLength op len) => len ≤ cap ∧ (op = none ↔ len = 0)
  | .diag (.unknownOpcode op len) => 1 ≤ len ∧ len ≤ cap ∧ ¬ assigned op
  | .diag _ => True

/-- The invariant of the block: (a) and (b) of rule R25, the canonical form of the buffer, and events
within their ranges. (c) of rule R25 is the type of `fstate`. -/
structure State.Legal (s : State) : Prop where
  cursor : s.wr ≤ cap
  recovering : s.fstate = .recovering → s.wr = 0
  buffer : Memory.wf s.buf = true
  events : ∀ e ∈ s.trace, e.Legal

/-- Two states the outside cannot tell apart: they differ at most in the buffer's cells at and above
`WR` (rule R19). -/
structure SameButStale (s t : State) : Prop where
  fstate : s.fstate = t.fstate
  wr : s.wr = t.wr
  live : ∀ a, a < s.wr → Memory.read s.buf a = Memory.read t.buf a
  lc : s.lc = t.lc
  trace : s.trace = t.trace
  params : s.params = t.params
  pending : s.pending = t.pending

/-- `n` steps of the machine, stopping at the first that does not go on. -/
def runSteps : Nat → State → Host.Outcome State Fault Refusal
  | 0, s => .next s
  | n + 1, s => andThen (step s) (runSteps n)

/-- A step or operation that goes on. -/
def GoesOn (o : Host.Outcome State Fault Refusal) : Prop := ∃ t, o = .next t

/-- Every byte of the buffer reads as before. -/
def SameBytes (s t : State) : Prop := ∀ a, memRead1 t a = memRead1 s a

/-- What no stream byte ever touches: the parameters (rule R24) and the host's further moves. -/
structure SameOutside (s t : State) : Prop where
  params : t.params = s.params
  pending : t.pending = s.pending

/-- From `s` to `t` the event `e` is emitted, and nothing else changes. -/
structure Emits (e : Event) (s t : State) : Prop where
  trace : t.trace = s.trace ++ [e]
  fstate : t.fstate = s.fstate
  wr : t.wr = s.wr
  bytes : SameBytes s t
  lc : t.lc = s.lc
  outside : SameOutside s t

/-- From `s` to `t` the event `e` is emitted, Last Color becomes `c`, and nothing else changes. -/
structure EmitsColored (e : Event) (c : Color) (s t : State) : Prop where
  trace : t.trace = s.trace ++ [e]
  lc : t.lc = c
  fstate : t.fstate = s.fstate
  wr : t.wr = s.wr
  bytes : SameBytes s t
  outside : SameOutside s t

/-- From `s` to `t` the diagnostic `d` is reported, `WR` becomes 0 and `FSTATE` becomes `f`, and
nothing else changes. -/
structure ReportsAndClears (d : Diag) (f : FState) (s t : State) : Prop where
  trace : t.trace = s.trace ++ [.diag d]
  fstate : t.fstate = f
  wr : t.wr = 0
  bytes : SameBytes s t
  lc : t.lc = s.lc
  outside : SameOutside s t

/-- From `s` to `t` the byte `v` is stored at the old `WR`, which advances by one, `FSTATE` becomes
Normal, and nothing else changes: no event, no other byte. -/
structure Appends (v : Byte) (s t : State) : Prop where
  fstate : t.fstate = .normal
  wr : t.wr = s.wr + 1
  stored : memRead1 t s.wr = v
  others : ∀ a, a ≠ s.wr → memRead1 t a = memRead1 s a
  lc : t.lc = s.lc
  trace : t.trace = s.trace
  outside : SameOutside s t

/-- Last Color after the frames `ps`, started from `c` (rule R94). -/
def colorAfter (cfg : Config) : List (List Byte) → Color → Color
  | [], c => c
  | p :: ps, c => colorAfter cfg ps ((Instr.setsColor (decodeFrame cfg p)).getD c)

/-- The frames `ps` given to the command decoder directly, one after another, with no de-framer
before it (rule R2 and property S1). -/
def runPayloads : List (List Byte) → State → Host.Outcome State Fault Refusal
  | [], s => .next s
  | p :: ps, s => andThen (exec (decodeFrame s.params p) s) (runPayloads ps)

/-- The event last emitted. -/
def lastEvent (s : State) : Option Event := s.trace.getLast?

/-- A cause that only a dispatched frame has (rule R122). -/
def Diag.OfFrame (d : Diag) : Prop :=
  (∃ op len, d = .malformedLength op len) ∨ ∃ op len, d = .unknownOpcode op len

/-- What the interface holds is the event last emitted: the command offered is that sink event, the
beats still to come are the end of its sample block, the diagnostic reported is that diagnostic. A
frame under delivery was dispatched in Normal, and input stalls behind a report only for a frame. -/
structure SignalState.Consistent (σ : SignalState) : Prop where
  normal : σ.delivery ≠ .idle → σ.core.fstate = .normal
  command : ∀ e, σ.delivery = .command e → lastEvent σ.core = some e ∧ ∀ d, e ≠ .diag d
  samples : ∀ v rest, σ.delivery = .samples v rest →
    ∃ p1 p2 p3 taken, lastEvent σ.core = some (.wave p1 p2 p3 (taken ++ v :: rest))
  reported : ∀ d, σ.report = some d → lastEvent σ.core = some (.diag d)
  dropped : σ.delivery = .report → ∃ d, σ.report = some d ∧ d.OfFrame

/-- The sample byte transferred in a cycle, if any: `smp_valid` and `smp_ready` are both 1. -/
def beatTaken (i : SignalIn) (σ : SignalState) : List Byte :=
  match i.smpReady, (outputs i σ).smpValid, (outputs i σ).smpData with
  | true, true, some v => [v]
  | _, _, _ => []

/-- Run the cycles of a list of inputs, and collect the sample bytes transferred. -/
def runCycles : List SignalIn → SignalState → Host.Outcome (SignalState × List Byte) Fault Refusal
  | [], σ => .next (σ, [])
  | i :: is, σ =>
    match cycle i σ with
    | .next σ' =>
      match runCycles is σ' with
      | .next (σ'', beats) => .next (σ'', beatTaken i σ ++ beats)
      | .fault r => .fault r
      | .refused r => .refused r
    | .fault r => .fault r
    | .refused r => .refused r

end Sys2Proof.Machine
end

