-- ==== Sys2Proof/Certificates/Slice0/Obligations.lean ====
section
/-! DEFINITION. The statements for the provers. A byte of the wire is written as the literal the spec
gives it, not by the model's name for it. -/

open Sys2Proof Sys2Proof.Machine

/-! ### Reset -/

/-- R140, R142: hardware reset leaves `(Normal, 0)`, `LC = LASTCOLOR_RESET`, an empty trace, and
writes no cell; at the signal level it abandons whatever is under delivery. That the queue of host
moves stays is the model's choice (assumption log 9), and that the trace is emptied is its reading of
the table of R142 (assumption log 8). -/
def Obligations.HardwareResetInitialisesTheBlock : Prop :=
  (∀ s : State, ∃ t, takeMove .hardReset s = .next t ∧ t.fstate = .normal ∧ t.wr = 0 ∧
    t.lc = s.params.lastColorReset ∧ t.trace = [] ∧ SameBytes s t ∧ SameOutside s t) ∧
  (∀ cfg : Config, (State.resetWith cfg).fstate = .normal ∧ (State.resetWith cfg).wr = 0 ∧
    (State.resetWith cfg).lc = cfg.lastColorReset ∧ (State.resetWith cfg).trace = []) ∧
  (∀ (i : SignalIn) (σ : SignalState), i.rst = true → ∃ τ, cycle i σ = .next τ ∧
    takeMove .hardReset σ.core = .next τ.core ∧ τ.delivery = .idle ∧ τ.report = none)

/-- R74: soft reset leaves `(Normal, 0)` with no event, sets `LC` when SOFT_RESET_CLEARS_COLOR, and
a second one in a row has no effect. -/
def Obligations.SoftResetReturnsToNormalSilently : Prop :=
  ∀ s : State, ∃ t, takeMove .softReset s = .next t ∧ t.fstate = .normal ∧ t.wr = 0 ∧
    t.lc = (if s.params.softResetClearsColor then s.params.lastColorReset else s.lc) ∧
    t.trace = s.trace ∧ SameBytes s t ∧ SameOutside s t ∧ takeMove .softReset t = .next t

/-- R25: the state after reset meets the invariant, whatever the parameters. -/
def Obligations.ResetStatesAreLegal : Prop :=
  (∀ cfg : Config, (State.resetWith cfg).Legal) ∧ State.reset.Legal

/-! ### The step -/

/-- A step takes the host's next move: a byte runs the instruction decoded from it, in the state with
that move taken; resets are performed; with nothing pending the state stays (R60, R78; the queue is
the model's own, assumption log 1). -/
def Obligations.StepRunsTheDecodedInstruction : Prop :=
  ∀ s : State,
    (∀ (b : Byte) (moves : List HostMove), s.pending = .byte b :: moves →
      step s = exec (decodeSymbol s.fstate b) (s.setPending moves)) ∧
    (∀ moves : List HostMove, s.pending = .softReset :: moves →
      step s = .next (softReset (s.setPending moves))) ∧
    (∀ moves : List HostMove, s.pending = .hardReset :: moves →
      step s = .next (hardReset (s.setPending moves))) ∧
    (s.pending = [] → step s = .next s)

/-- R25 (a), (b), (c) and the ranges of R20 and R49: every step keeps the invariant. -/
def Obligations.EveryStepKeepsTheStateLegal : Prop :=
  ∀ s t : State, s.Legal → step s = .next t → t.Legal

/-- R120, R60: from a legal state a step goes on, whatever the host's move. -/
def Obligations.LegalStatesNeverStop : Prop :=
  ∀ s : State, s.Legal → GoesOn (step s)

/-- R75: a byte emits no event or exactly one, and never takes one back. -/
def Obligations.ByteEmitsAtMostOneEvent : Prop :=
  ∀ (b : Byte) (s t : State), stepByte b s = .next t →
    t.trace = s.trace ∨ ∃ e, t.trace = s.trace ++ [e]

/-- R76: where a delimiter leaves the de-framer, from each mode; two in a row; and each delimiter of a
stream in which every 0xDB is followed by 0xDC or 0xDD. -/
def Obligations.DelimiterEndsInNormal : Prop :=
  (∀ s : State, s.wr ≤ 512 → ∃ t, stepByte 0xC0 s = .next t ∧ t.wr = 0 ∧
    (s.fstate = .normal → t.fstate = .normal) ∧ (s.fstate = .recovering → t.fstate = .normal) ∧
    (s.fstate = .escaped → t.fstate = .recovering)) ∧
  (∀ s : State, s.wr ≤ 512 →
    ∃ t, process [0xC0, 0xC0] s = .next t ∧ t.fstate = .normal ∧ t.wr = 0) ∧
  (∀ (bytes : List Byte) (s : State), s.fstate ≠ .escaped → s.wr ≤ 512 →
    (∀ before after, bytes = before ++ 0xDB :: after →
      ∃ c rest, after = c :: rest ∧ (c = 0xDC ∨ c = 0xDD)) →
    ∃ t, process (bytes ++ [0xC0]) s = .next t ∧ t.fstate = .normal ∧ t.wr = 0)

/-- R73: chunk boundaries are unobservable. -/
def Obligations.ChunkBoundariesDoNotMatter : Prop :=
  ∀ (p q : List Byte) (s : State), process (p ++ q) s = andThen (process p s) (process q)

/-- R72: `process` is one step per byte, in order: the machine run on queued bytes ends where
`process` of these bytes ends. -/
def Obligations.QueuedBytesRunAsProcess : Prop :=
  ∀ (bytes : List Byte) (s : State), s.pending = bytes.map .byte →
    runSteps bytes.length s = process bytes (s.setPending [])

/-- R24: no step writes a parameter. -/
def Obligations.ParametersAreNeverWritten : Prop :=
  ∀ s t : State, step s = .next t → t.params = s.params

/-! ### Encodings -/

/-- R48: which (FSTATE, byte) pairs each of the eight symbols takes. -/
def Obligations.SymbolTableIsTheSpecs : Prop :=
  ∀ (m : FState) (b : Byte),
    (decodeSymbol m b = .nEnd ↔ m = .normal ∧ b = 0xC0) ∧
    (decodeSymbol m b = .nEsc ↔ m = .normal ∧ b = 0xDB) ∧
    (∀ c, decodeSymbol m b = .nData c ↔ m = .normal ∧ b = c ∧ b ≠ 0xC0 ∧ b ≠ 0xDB) ∧
    (decodeSymbol m b = .eDelim ↔ m = .escaped ∧ b = 0xDC) ∧
    (decodeSymbol m b = .eEsc ↔ m = .escaped ∧ b = 0xDD) ∧
    (∀ c, decodeSymbol m b = .eBad c ↔ m = .escaped ∧ b = c ∧ b ≠ 0xDC ∧ b ≠ 0xDD) ∧
    (decodeSymbol m b = .rEnd ↔ m = .recovering ∧ b = 0xC0) ∧
    (∀ c, decodeSymbol m b = .rSkip c ↔ m = .recovering ∧ b = c ∧ b ≠ 0xC0)

/-- Frames of the spec's own examples, written out, and what they decode to (R90, R91, R92, R95,
R100, R110); a sanity statement. -/
def Obligations.ExampleFramesDecode : Prop :=
  decode Config.default (.frame [0xFE, 0x05, 0x00, 0x06, 0x00, 0x07, 0x00, 0x08, 0x00, 0x0A, 0x14, 0x1E]) =
    .ok (.rect12 5 6 7 8 10 20 30) ∧
  decode Config.default (.frame [0xFE, 0x34, 0x12, 0xFF, 0xFF, 0xAA, 0xBB, 0xCC, 0x77]) =
    .ok (.rect9 4660 65535 0xAA 0xBB 0xCC 0x77) ∧
  decode Config.default (.frame [0xFE, 0x01, 0x00, 0x02, 0x00]) = .ok (.rect5 1 2) ∧
  decode Config.default (.frame [0xFD, 0x41, 0x10, 0x00, 0x20, 0x01, 0xFF, 0x80, 0x00, 0x11, 0x22, 0x33]) =
    .ok (.text12 0x41 16 288 255 128 0 0x11 0x22 0x33) ∧
  decode Config.default (.frame [0xFC, 0x01, 0x02, 0x03, 0x99]) = .ok (.wave 1 2 3 [0x99]) ∧
  decode Config.default (.frame [0xFF, 0x01, 0x02, 0x03, 0x04, 0x05]) = .ok (.sys 1 2 3 4 5 [])

/-- R51, R57: decoding the encoding of a well-formed instruction gives it back, at both levels, with
every operand at every value. -/
def Obligations.DecodeOfEncodeIsTheInstruction : Prop :=
  ∀ (cfg : Config) (i : Instr), i.wf cfg = true → decode cfg (encode cfg i) = .ok i

/-- R48, R88: every encoded instruction has one meaning: what decodes is well-formed, and its
encoding is what was decoded. -/
def Obligations.EncodeOfDecodeIsTheCode : Prop :=
  ∀ (cfg : Config) (c : Code) (i : Instr), decode cfg c = .ok i → i.wf cfg = true ∧ encode cfg i = c

/-- R49: every frame of at most 512 bytes decodes. That a longer payload is refused, and by which
name, is the model's choice (assumption log 14). -/
def Obligations.FramesDecodeUpToCapacity : Prop :=
  ∀ (cfg : Config) (p : List Byte),
    (p.length ≤ 512 → decode cfg (.frame p) = .ok (decodeFrame cfg p)) ∧
    (512 < p.length → decode cfg (.frame p) = .error (.frameTooLong p.length))

/-- R47: the stuffing rule, and that a stuffed payload never contains 0xC0 and contains 0xDB only as
the first byte of a two-byte escape. -/
def Obligations.StuffedPayloadHasNoDelimiter : Prop :=
  stuff [0xC0] = [0xDB, 0xDC] ∧ stuff [0xDB] = [0xDB, 0xDD] ∧
  (∀ v : Byte, v ≠ 0xC0 → v ≠ 0xDB → stuff [v] = [v]) ∧
  (∀ p q : List Byte, stuff (p ++ q) = stuff p ++ stuff q) ∧
  (∀ p : List Byte, wireFrame p = stuff p ++ [0xC0]) ∧
  ∀ p : List Byte, (0xC0 : Byte) ∉ stuff p ∧
    ∀ before after, stuff p = before ++ 0xDB :: after →
      ∃ c rest, after = c :: rest ∧ (c = 0xDC ∨ c = 0xDD)

/-- R59: feeding `FRAME(p)` in `(Normal, 0)` appends exactly the bytes of `p`, runs exactly the command
`p` decodes to, and ends in `(Normal, 0)`: the trace gains what that command emits and nothing else,
so no framing diagnostic. -/
def Obligations.DestuffingInvertsStuffing : Prop :=
  ∀ (p : List Byte) (s : State), p.length ≤ 512 → s.fstate = .normal → s.wr = 0 →
    (∃ m, process (stuff p) s = .next m ∧ m.fstate = .normal ∧ m.frame = p ∧ m.trace = s.trace) ∧
    ∃ t u events, process (wireFrame p) s = .next t ∧ exec (decodeFrame s.params p) s = .next u ∧
      t.fstate = .normal ∧ t.wr = 0 ∧ t.trace = u.trace ∧ t.lc = u.lc ∧ SameOutside s t ∧
      t.trace = s.trace ++ events ∧ .diag .framingViolation ∉ events ∧ .diag .overrun ∉ events ∧
      .diag .recovered ∉ events

/-- The round-trip property of the source (S1): a stream of frames gives exactly the events and the
Last Color that the frames give when fed to the command decoder directly. -/
def Obligations.StreamsRunAsTheirFrames : Prop :=
  ∀ (ps : List (List Byte)) (s : State), (∀ p ∈ ps, p.length ≤ 512) → s.fstate = .normal → s.wr = 0 →
    ∃ t u, process (wireStream ps) s = .next t ∧ runPayloads ps s = .next u ∧
      t.fstate = .normal ∧ t.wr = 0 ∧ t.trace = u.trace ∧ t.lc = u.lc ∧ SameOutside s t

/-! ### Stream symbols -/

/-- R61: `N.END` runs the command the frame `BUF[0 .. WR-1]` decodes to, then clears; an empty and a
full buffer are dispatched too. -/
def Obligations.NEndDispatchesThenClears : Prop :=
  decodeSymbol .normal 0xC0 = .nEnd ∧
  ∀ s : State, s.wr ≤ 512 → ∃ t u, exec .nEnd s = .next t ∧
    exec (decodeFrame s.params (memReadBlock s 0 s.wr)) s = .next u ∧
    t.fstate = .normal ∧ t.wr = 0 ∧ t.trace = u.trace ∧ t.lc = u.lc ∧ SameBytes s t ∧ SameOutside s t

/-- The model's own stop (assumption log 7): a frame that would reach offset 512 is not read. -/
def Obligations.NEndStopsWhereNoCellExists : Prop :=
  ∀ s : State, 512 < s.wr → exec .nEnd s = .fault (.absentCell 512)

/-- R62: `N.ESC` writes `FSTATE` only, at a full buffer too. -/
def Obligations.NEscWritesFstateOnly : Prop :=
  decodeSymbol .normal 0xDB = .nEsc ∧
  ∀ s : State, ∃ t, exec .nEsc s = .next t ∧ t.fstate = .escaped ∧ t.wr = s.wr ∧ t.lc = s.lc ∧
    t.trace = s.trace ∧ SameBytes s t ∧ SameOutside s t

/-- R63, R64, R65, R69, R71: the three appending symbols store their byte at `WR`, or raise OVERRUN
at a full buffer, where nothing is stored. -/
def Obligations.AppendingSymbolsStoreOrOverrun : Prop :=
  (∀ b : Byte, b ≠ 0xC0 → b ≠ 0xDB → decodeSymbol .normal b = .nData b) ∧
  decodeSymbol .escaped 0xDC = .eDelim ∧ decodeSymbol .escaped 0xDD = .eEsc ∧
  ∀ (s : State) (b : Byte),
    (s.wr < 512 →
      (∃ t, exec (.nData b) s = .next t ∧ Appends b s t) ∧
      (∃ t, exec .eDelim s = .next t ∧ Appends 0xC0 s t) ∧
      (∃ t, exec .eEsc s = .next t ∧ Appends 0xDB s t)) ∧
    (512 ≤ s.wr →
      (∃ t, exec (.nData b) s = .next t ∧ ReportsAndClears .overrun .recovering s t) ∧
      (∃ t, exec .eDelim s = .next t ∧ ReportsAndClears .overrun .recovering s t) ∧
      (∃ t, exec .eEsc s = .next t ∧ ReportsAndClears .overrun .recovering s t))

/-- R66: `E.BAD` reports the violation and enters Recovering, whatever the byte and `WR`. -/
def Obligations.BadEscapeEntersRecovering : Prop :=
  (∀ b : Byte, b ≠ 0xDC → b ≠ 0xDD → decodeSymbol .escaped b = .eBad b) ∧
  ∀ (b : Byte) (s : State), ∃ t, exec (.eBad b) s = .next t ∧
    ReportsAndClears .framingViolation .recovering s t

/-- R70: at a full buffer in Escaped the byte decides between OVERRUN and FRAMING_VIOLATION. -/
def Obligations.EscapedFullBufferByteDecides : Prop :=
  ∀ (b : Byte) (s : State), s.fstate = .escaped → s.wr = 512 →
    ∃ t, stepByte b s = .next t ∧
      (if b = 0xDC ∨ b = 0xDD then ReportsAndClears .overrun .recovering s t
       else ReportsAndClears .framingViolation .recovering s t)

/-- R67: `R.END` reports the recovery and is back in `(Normal, 0)`; no frame is dispatched. -/
def Obligations.REndReportsRecovery : Prop :=
  decodeSymbol .recovering 0xC0 = .rEnd ∧
  ∀ s : State, ∃ t, exec .rEnd s = .next t ∧ ReportsAndClears .recovered .normal s t

/-- R68: `R.SKIP` changes nothing. -/
def Obligations.RSkipChangesNothing : Prop :=
  (∀ b : Byte, b ≠ 0xC0 → decodeSymbol .recovering b = .rSkip b) ∧
  ∀ (b : Byte) (s : State), exec (.rSkip b) s = .next s

/-- R131, R127: in Recovering any run of bytes without 0xC0 is discarded without a report, and the
first 0xC0 emits exactly one RECOVERED and restores `(Normal, 0)`. -/
def Obligations.RecoveryDiscardsUpToTheDelimiter : Prop :=
  ∀ (bytes : List Byte) (s : State), s.fstate = .recovering → (0xC0 : Byte) ∉ bytes →
    process bytes s = .next s ∧
    ∃ t, process (bytes ++ [0xC0]) s = .next t ∧ ReportsAndClears .recovered .normal s t

/-- R77: a recovered block is a freshly soft-reset one in all but Last Color and the reports made, and
in all but the reports where `LC` already is the reset colour. -/
def Obligations.RecoveredBlockIsAsFreshlyReset : Prop :=
  ∀ s : State, s.fstate = .recovering → ∃ t, stepByte 0xC0 s = .next t ∧ t.lc = s.lc ∧
    (∀ c, SameButStale (t.setLc c) (((softReset s).emit (.diag .recovered)).setLc c)) ∧
    (s.lc = s.params.lastColorReset → SameButStale t ((softReset s).emit (.diag .recovered)))

/-! ### Frame commands -/

/-- R31, R52: a 16-bit field is little-endian, and every value is legal. -/
def Obligations.FieldsAreLittleEndian : Prop :=
  ∀ (s : State) (a : Nat),
    (memRead2 s a).toNat = (memRead1 s a).toNat + 256 * (memRead1 s (a + 1)).toNat

/-- R90: encoding and effect of `RECT12`. -/
def Obligations.Rect12DrawsAndSetsLastColor : Prop :=
  (∀ s : State, s.wr = 12 → memRead1 s 0 = 0xFE →
    decodeFrame s.params s.frame = .rect12 (memRead2 s 1) (memRead2 s 3) (memRead2 s 5) (memRead2 s 7)
      (memRead1 s 9) (memRead1 s 10) (memRead1 s 11)) ∧
  ∀ (x y w h : Half) (r g b : Byte) (s : State), ∃ t, exec (.rect12 x y w h r g b) s = .next t ∧
    EmitsColored (.rect x y w h r g b) ⟨r, g, b⟩ s t

/-- R91: encoding and effect of `RECT9`, for both positions RECT9_RGB_BASE may name. -/
def Obligations.Rect9DrawsAndSetsLastColor : Prop :=
  (∀ s : State, s.wr = 9 → memRead1 s 0 = 0xFE →
    ∃ pad, decodeFrame s.params s.frame = .rect9 (memRead2 s 1) (memRead2 s 3)
      (memRead1 s s.params.rect9RgbBase.offset) (memRead1 s (s.params.rect9RgbBase.offset + 1))
      (memRead1 s (s.params.rect9RgbBase.offset + 2)) pad) ∧
  State.reset.params.rect9RgbBase.offset = 5 ∧
  ∀ (x y : Half) (r g b pad : Byte) (s : State), ∃ t, exec (.rect9 x y r g b pad) s = .next t ∧
    EmitsColored (.rect x y 1 1 r g b) ⟨r, g, b⟩ s t

/-- R92: encoding and effect of `RECT5`: the colour is Last Color, which is not written. -/
def Obligations.Rect5DrawsInLastColor : Prop :=
  (∀ s : State, s.wr = 5 → memRead1 s 0 = 0xFE →
    decodeFrame s.params s.frame = .rect5 (memRead2 s 1) (memRead2 s 3)) ∧
  ∀ (x y : Half) (s : State), ∃ t, exec (.rect5 x y) s = .next t ∧
    Emits (.rect x y 1 1 s.lc.r s.lc.g s.lc.b) s t

/-- R95: encoding and effect of `TEXT12`. -/
def Obligations.Text12DrawsOneGlyph : Prop :=
  (∀ s : State, s.wr = 12 → memRead1 s 0 = 0xFD →
    decodeFrame s.params s.frame = .text12 (memRead1 s 1) (memRead2 s 2) (memRead2 s 4)
      (memRead1 s 6) (memRead1 s 7) (memRead1 s 8) (memRead1 s 9) (memRead1 s 10) (memRead1 s 11)) ∧
  ∀ (c : Byte) (x y : Half) (r g b t0 t1 t2 : Byte) (s : State),
    ∃ t, exec (.text12 c x y r g b t0 t1 t2) s = .next t ∧ Emits (.text c x y r g b) s t

/-- R100: encoding and effect of `WAVE`: the block is offsets 4 to `len`-1, empty at length 4. -/
def Obligations.WavePassesItsBlockThrough : Prop :=
  (∀ s : State, 4 ≤ s.wr → s.wr ≤ 324 → memRead1 s 0 = 0xFC →
    decodeFrame s.params s.frame =
      .wave (memRead1 s 1) (memRead1 s 2) (memRead1 s 3) (memReadBlock s 4 (s.wr - 4))) ∧
  ∀ (p1 p2 p3 : Byte) (samples : List Byte) (s : State),
    ∃ t, exec (.wave p1 p2 p3 samples) s = .next t ∧ Emits (.wave p1 p2 p3 samples) s t

/-- R105: encoding and effect of `JPAD3`: accepted, and nothing at all happens. -/
def Obligations.Jpad3ChangesNothing : Prop :=
  (∀ s : State, s.wr = 3 → memRead1 s 0 = 0xFB →
    decodeFrame s.params s.frame = .jpad3 (memRead1 s 1) (memRead1 s 2)) ∧
  ∀ (j0 j1 : Byte) (s : State), exec (.jpad3 j0 j1) s = .next s

/-- R110: encoding and effect of `SYS`: the font index is the byte at offset 5. Where SYS_MIN_LEN is
not the 6 of R110, the length required is the model's choice (assumption log 5). -/
def Obligations.SysSetsTheFont : Prop :=
  (∀ s : State, max 6 s.params.sysMinLen ≤ s.wr → memRead1 s 0 = 0xFF →
    ∃ a1 a2 a3 a4 tail,
      decodeFrame s.params s.frame = .sys a1 a2 a3 a4 (memRead1 s 5) tail) ∧
  State.reset.params.sysMinLen = 6 ∧
  ∀ (a1 a2 a3 a4 f : Byte) (tail : List Byte) (s : State),
    ∃ t, exec (.sys a1 a2 a3 a4 f tail) s = .next t ∧ Emits (.font f) s t

/-- R81: the empty frame is reported with the opcode absent, whatever the stale cell 0 holds. -/
def Obligations.EmptyFrameIsReported : Prop :=
  (∀ s : State, s.wr = 0 → decodeFrame s.params s.frame = .empty) ∧
  ∀ s : State, ∃ t, exec .empty s = .next t ∧ Emits (.diag (.malformedLength none 0)) s t

/-- R83: every first byte but the five assigned ones is reported as unknown, at every length. -/
def Obligations.UnknownOpcodeIsReported : Prop :=
  (∀ s : State, 1 ≤ s.wr →
    memRead1 s 0 ∉ ([0xFB, 0xFC, 0xFD, 0xFE, 0xFF] : List Byte) →
    decodeFrame s.params s.frame = .unknown (memRead1 s 0) (memReadBlock s 1 (s.wr - 1))) ∧
  ∀ (op : Byte) (rest : List Byte) (s : State), ∃ t, exec (.unknown op rest) s = .next t ∧
    Emits (.diag (.unknownOpcode op (1 + rest.length))) s t

/-- R93, R96, R101, R106, R111: an assigned opcode with a length not accepted for it is reported with
the opcode and the length, and the frame has no other effect. Where SYS_MIN_LEN is not the 6 of R111,
the length required of a System frame is the model's choice (assumption log 5). -/
def Obligations.UnacceptedLengthsAreReportedAndDropped : Prop :=
  (∀ s : State, 1 ≤ s.wr →
    (memRead1 s 0 = 0xFE → s.wr ≠ 5 → s.wr ≠ 9 → s.wr ≠ 12 →
      decodeFrame s.params s.frame = .rectBad (memReadBlock s 1 (s.wr - 1))) ∧
    (memRead1 s 0 = 0xFD → s.wr ≠ 12 →
      decodeFrame s.params s.frame = .textBad (memReadBlock s 1 (s.wr - 1))) ∧
    (memRead1 s 0 = 0xFC → (s.wr < 4 ∨ 324 < s.wr) →
      decodeFrame s.params s.frame = .waveBad (memReadBlock s 1 (s.wr - 1))) ∧
    (memRead1 s 0 = 0xFB → s.wr ≠ 3 →
      decodeFrame s.params s.frame = .jpadBad (memReadBlock s 1 (s.wr - 1))) ∧
    (memRead1 s 0 = 0xFF → s.wr < max 6 s.params.sysMinLen →
      decodeFrame s.params s.frame = .sysShort (memReadBlock s 1 (s.wr - 1)))) ∧
  ∀ (rest : List Byte) (s : State),
    (∃ t, exec (.rectBad rest) s = .next t ∧
      Emits (.diag (.malformedLength (some 0xFE) (1 + rest.length))) s t) ∧
    (∃ t, exec (.textBad rest) s = .next t ∧
      Emits (.diag (.malformedLength (some 0xFD) (1 + rest.length))) s t) ∧
    (∃ t, exec (.waveBad rest) s = .next t ∧
      Emits (.diag (.malformedLength (some 0xFC) (1 + rest.length))) s t) ∧
    (∃ t, exec (.jpadBad rest) s = .next t ∧
      Emits (.diag (.malformedLength (some 0xFB) (1 + rest.length))) s t) ∧
    (∃ t, exec (.sysShort rest) s = .next t ∧
      Emits (.diag (.malformedLength (some 0xFF) (1 + rest.length))) s t)

/-- R88: a frame command emits exactly one event, but `JPAD3`, which emits none. -/
def Obligations.FrameEmitsOneEventUnlessJoypad : Prop :=
  ∀ s : State, s.wr ≤ 512 → ∃ t, runDecoder s = .next t ∧
    (if s.wr = 3 ∧ memRead1 s 0 = 0xFB then t.trace = s.trace
     else ∃ e, t.trace = s.trace ++ [e])

/-- R86: the command decoder touches neither `FSTATE` nor `WR` nor the buffer, and what it emits and
leaves in `LC` depends on the frame's bytes, `LC` and the parameters alone. -/
def Obligations.DecoderDependsOnFrameAndColorAlone : Prop :=
  ∀ s t : State, s.wr ≤ 512 → s.wr = t.wr → (∀ a, a < s.wr → memRead1 s a = memRead1 t a) →
    s.lc = t.lc → s.params = t.params →
    ∃ (s' t' : State) (event : Option Event), runDecoder s = .next s' ∧ runDecoder t = .next t' ∧
      s'.trace = s.trace ++ event.toList ∧ t'.trace = t.trace ++ event.toList ∧ s'.lc = t'.lc ∧
      s'.fstate = s.fstate ∧ s'.wr = s.wr ∧ SameBytes s s' ∧ SameOutside s s'

/-- R14: a byte writes Last Color only where it is a delimiter in Normal that dispatches a `RECT12` or
a `RECT9`, and then writes that frame's colour; every other byte leaves it. -/
def Obligations.OnlyColoredRectanglesWriteLastColor : Prop :=
  ∀ (b : Byte) (s t : State), stepByte b s = .next t →
    t.lc = (if s.fstate = .normal ∧ b = 0xC0
      then (Instr.setsColor (decodeFrame s.params s.frame)).getD s.lc else s.lc)

/-- R94: Last Color after a sequence of frames is the colour of the last one that carried a colour,
or the one before the sequence. -/
def Obligations.LastColorFollowsTheLastColoredFrame : Prop :=
  ∀ (ps : List (List Byte)) (s : State), (∀ p ∈ ps, p.length ≤ 512) → s.fstate = .normal → s.wr = 0 →
    ∃ t, process (wireStream ps) s = .next t ∧ t.lc = colorAfter s.params ps s.lc

/-- R19: the cells at and above `WR` are unobservable: two states that differ in nothing else run
alike for ever, whatever the host does. -/
def Obligations.StaleCellsAreUnobservable : Prop :=
  ∀ (n : Nat) (s t : State), SameButStale s t → s.wr ≤ 512 →
    ∃ s' t', runSteps n s = .next s' ∧ runSteps n t = .next t' ∧ SameButStale s' t'

/-! ### The signal level (R27; its timing is the model's choice, assumption log 12) -/

/-- R27, R129 (a): a cycle performs a hardware reset, else a soft reset (asked for now, or held, with no
frame under delivery), else the step of the byte where `in_valid` and `in_ready` are both 1, else
nothing, on the state the abstract machine is in; and a held soft reset is held no longer. -/
def Obligations.CyclesRefineAbstractSteps : Prop :=
  ∀ (i : SignalIn) (σ τ : SignalState), cycle i σ = .next τ →
    (if i.rst = true then τ.abstract = hardReset σ.abstract
     else if σ.delivery = .idle ∧ (i.softReset = true ∨ σ.held = true) then
       τ.abstract = softReset σ.abstract
     else if i.inValid = true ∧ (outputs i σ).inReady = true then
       stepByte i.inData σ.abstract = .next τ.abstract
     else τ.abstract = σ.abstract) ∧
    (i.rst = true ∨ σ.delivery = .idle → τ.held = false)

/-- R27: what is under delivery or reported stays the event last emitted, of a frame dispatched in
Normal where it is under delivery. -/
def Obligations.CyclesKeepDeliveryConsistent : Prop :=
  SignalState.reset.Consistent ∧
  ∀ (i : SignalIn) (σ τ : SignalState), σ.Consistent → cycle i σ = .next τ → τ.Consistent

/-- R27, R147, D14: while a frame is under delivery no input is taken, the buffer is held, `WR` stays
until the delivery ends and is 0 then, and a soft reset that arrives is held; a sink that is not ready
leaves the delivery as it is, and one that is ready ends it or, for a WAVE, moves it to the next beat. -/
def Obligations.InputStallsDuringDelivery : Prop :=
  ∀ (i : SignalIn) (σ : SignalState), i.rst = false → σ.delivery ≠ .idle →
    (outputs i σ).inReady = false ∧ ∃ τ, cycle i σ = .next τ ∧ SameBytes σ.core τ.core ∧
      τ.held = (i.softReset || σ.held) ∧ τ.core.lc = σ.core.lc ∧ τ.core.trace = σ.core.trace ∧
      (τ.delivery ≠ .idle → τ.core.wr = σ.core.wr) ∧ (τ.delivery = .idle → τ.core.wr = 0) ∧
      (∀ e, σ.delivery = .command e → i.cmdReady = false → τ.delivery = .command e) ∧
      (∀ v rest, σ.delivery = .samples v rest → i.smpReady = false → τ.delivery = .samples v rest) ∧
      (∀ e, σ.delivery = .command e → i.cmdReady = true →
        (∀ p1 p2 p3 samples, e ≠ .wave p1 p2 p3 samples) → τ.delivery = .idle) ∧
      (∀ p1 p2 p3 v rest, σ.delivery = .command (.wave p1 p2 p3 (v :: rest)) → i.cmdReady = true →
        τ.delivery = .samples v rest) ∧
      (∀ p1 p2 p3, σ.delivery = .command (.wave p1 p2 p3 []) → i.cmdReady = true →
        τ.delivery = .idle) ∧
      (∀ v w rest, σ.delivery = .samples v (w :: rest) → i.smpReady = true →
        τ.delivery = .samples w rest) ∧
      (∀ v, σ.delivery = .samples v [] → i.smpReady = true → τ.delivery = .idle) ∧
      (σ.delivery = .report → τ.delivery = .idle)

/-- R27, R44: after a WAVE command is offered, whatever the inputs but `rst`, and however the sink
stalls: the beats taken so far are the samples up to the one offered, and once the delivery has ended
they are exactly the samples; a sink that is always ready takes them in as many cycles as there are
samples, after the one that takes the command. -/
def Obligations.WaveBeatsFollowInBufferOrder : Prop :=
  ∀ (p1 p2 p3 : Byte) (samples : List Byte) (σ : SignalState) (ins : List SignalIn),
    σ.delivery = .command (.wave p1 p2 p3 samples) → (∀ i ∈ ins, i.rst = false) →
    ((∃ τ beats, runCycles ins σ = .next (τ, beats) ∧
        ((τ.delivery = .command (.wave p1 p2 p3 samples) ∧ beats = []) ∨
          ∃ v rest, τ.delivery = .samples v rest ∧ samples = beats ++ v :: rest)) ∨
      ∃ before after τ, ins = before ++ after ∧ runCycles before σ = .next (τ, samples) ∧
        τ.delivery = .idle ∧ τ.core.wr = 0) ∧
    (ins.length = samples.length + 1 → (∀ i ∈ ins, i.cmdReady = true ∧ i.smpReady = true) →
      ∃ τ, runCycles ins σ = .next (τ, samples) ∧ τ.delivery = .idle ∧ τ.core.wr = 0)

/-- R27, D18, R122: what the command, sample and diagnostics ports carry for each event, and that a
port is not valid where it has nothing to carry; `diag_cause` is then 0. -/
def Obligations.PortsCarryTheEvent : Prop :=
  ∀ (i : SignalIn) (σ : SignalState), i.rst = false →
    (∀ x y w h r g b, σ.delivery = .command (.rect x y w h r g b) →
      (outputs i σ).cmdValid = true ∧ (outputs i σ).cmdKind = some 0 ∧ (outputs i σ).cmdX = some x ∧
      (outputs i σ).cmdY = some y ∧ (outputs i σ).cmdW = some w ∧ (outputs i σ).cmdH = some h ∧
      (outputs i σ).cmdR = some r ∧ (outputs i σ).cmdG = some g ∧ (outputs i σ).cmdB = some b) ∧
    (∀ c x y r g b, σ.delivery = .command (.text c x y r g b) →
      (outputs i σ).cmdValid = true ∧ (outputs i σ).cmdKind = some 1 ∧ (outputs i σ).cmdX = some x ∧
      (outputs i σ).cmdY = some y ∧ (outputs i σ).cmdR = some r ∧ (outputs i σ).cmdG = some g ∧
      (outputs i σ).cmdB = some b ∧ (outputs i σ).cmdC = some c) ∧
    (∀ p1 p2 p3 samples, σ.delivery = .command (.wave p1 p2 p3 samples) →
      (outputs i σ).cmdValid = true ∧ (outputs i σ).cmdKind = some 2 ∧ (outputs i σ).cmdR = some p1 ∧
      (outputs i σ).cmdG = some p2 ∧ (outputs i σ).cmdB = some p3 ∧
      (outputs i σ).cmdN = some (BitVec.ofNat 9 samples.length)) ∧
    (∀ f, σ.delivery = .command (.font f) →
      (outputs i σ).cmdValid = true ∧ (outputs i σ).cmdKind = some 3 ∧ (outputs i σ).cmdC = some f) ∧
    (∀ v rest, σ.delivery = .samples v rest → (outputs i σ).smpValid = true ∧
      (outputs i σ).smpData = some v ∧ ((outputs i σ).smpLast = true ↔ rest = [])) ∧
    (∀ op len, σ.report = some (.malformedLength op len) → (outputs i σ).diagValid = true ∧
      (outputs i σ).diagCause = 2 ∧ (outputs i σ).diagOpv = op.isSome ∧
      (outputs i σ).diagOp = op ∧ (outputs i σ).diagLen = some (BitVec.ofNat 10 len)) ∧
    (∀ op len, σ.report = some (.unknownOpcode op len) → (outputs i σ).diagValid = true ∧
      (outputs i σ).diagCause = 3 ∧ (outputs i σ).diagOpv = true ∧
      (outputs i σ).diagOp = some op ∧ (outputs i σ).diagLen = some (BitVec.ofNat 10 len)) ∧
    (σ.report = some .framingViolation → (outputs i σ).diagValid = true ∧
      (outputs i σ).diagCause = 1 ∧ (outputs i σ).diagOpv = false) ∧
    (σ.report = some .overrun → (outputs i σ).diagValid = true ∧
      (outputs i σ).diagCause = 4 ∧ (outputs i σ).diagOpv = false) ∧
    (σ.report = some .recovered → (outputs i σ).diagValid = true ∧
      (outputs i σ).diagCause = 5 ∧ (outputs i σ).diagOpv = false) ∧
    ((∀ e, σ.delivery ≠ .command e) → (outputs i σ).cmdValid = false) ∧
    ((∀ v rest, σ.delivery ≠ .samples v rest) →
      (outputs i σ).smpValid = false ∧ (outputs i σ).smpLast = false) ∧
    (σ.report = none → (outputs i σ).diagValid = false ∧
      (outputs i σ).diagCause = 0 ∧ (outputs i σ).diagOpv = false)

/-- R27: a byte transferred performs `step(in_data)`, and what that step emits is what is offered or
reported next: no event, nothing; a sink event, that command; a diagnostic, that report, which stalls
the input exactly where a frame was dispatched. `WR` keeps the frame's length while it is under
delivery. In a cycle without a transfer nothing new is reported. -/
def Obligations.TakenByteOffersItsEvent : Prop :=
  (∀ (i : SignalIn) (σ : SignalState) (t : State), i.inValid = true → (outputs i σ).inReady = true →
    stepByte i.inData σ.core = .next t → ∃ τ, cycle i σ = .next τ ∧
      (t.trace = σ.core.trace → τ.delivery = .idle ∧ τ.report = none) ∧
      (∀ e, t.trace = σ.core.trace ++ [e] → (∀ d, e ≠ .diag d) →
        τ.delivery = .command e ∧ τ.report = none) ∧
      (∀ d, t.trace = σ.core.trace ++ [.diag d] → τ.report = some d ∧
        τ.delivery = (if σ.core.fstate = .normal ∧ i.inData = 0xC0 then .report else .idle)) ∧
      (τ.delivery ≠ .idle → τ.core.wr = σ.core.wr) ∧ (∀ a, memRead1 τ.core a = memRead1 t a)) ∧
  ∀ (i : SignalIn) (σ τ : SignalState), ¬ (i.inValid = true ∧ (outputs i σ).inReady = true) →
    cycle i σ = .next τ → τ.report = none

/-- R27: `in_ready` is 1 exactly where neither reset is asked for and nothing is under delivery or held;
while `rst` is 1 no port is valid. -/
def Obligations.InReadyIsLowUnderResetAndDelivery : Prop :=
  ∀ (i : SignalIn) (σ : SignalState),
    ((outputs i σ).inReady = true ↔
      i.rst = false ∧ i.softReset = false ∧ σ.held = false ∧ σ.delivery = .idle) ∧
    (i.rst = true → (outputs i σ).cmdValid = false ∧ (outputs i σ).smpValid = false ∧
      (outputs i σ).diagValid = false ∧ (outputs i σ).diagCause = 0)

/-- R25, R120 at the signal level: from a core that meets the invariant every cycle goes on, whatever
the inputs and whatever is under delivery, to a core that meets it. -/
def Obligations.CyclesGoOnFromLegalCores : Prop :=
  ∀ (i : SignalIn) (σ : SignalState), σ.core.Legal →
    ∃ τ, cycle i σ = .next τ ∧ τ.core.Legal
end

