-- ==== Sys2Proof/Laws/Decode.lean ====
section
/-! SUPPORT. Small lemmas about fields and the wire: a 16-bit field and its two bytes, and stuffing
of a sequence. -/

namespace Sys2Proof

/-- Rule R31: the byte at the lower offset is the less significant. -/
theorem u16_toNat (lo hi : Byte) : (u16 lo hi).toNat = lo.toNat + 256 * hi.toNat := by
  have hl := lo.isLt
  simp only [u16, BitVec.toNat_append]
  rw [← Nat.shiftLeft_add_eq_or_of_lt hl, Nat.shiftLeft_eq]
  omega

@[simp] theorem u16_lowByte_highByte (v : Half) : u16 (lowByte v) (highByte v) = v := by
  apply BitVec.eq_of_toNat_eq
  rw [u16_toNat]
  have := v.isLt
  simp only [lowByte, highByte, BitVec.extractLsb'_toNat, Nat.shiftRight_eq_div_pow]
  omega

@[simp] theorem lowByte_u16 (lo hi : Byte) : lowByte (u16 lo hi) = lo := by
  apply BitVec.eq_of_toNat_eq
  have := lo.isLt
  simp only [lowByte, BitVec.extractLsb'_toNat, u16_toNat, Nat.shiftRight_eq_div_pow]
  omega

@[simp] theorem highByte_u16 (lo hi : Byte) : highByte (u16 lo hi) = hi := by
  apply BitVec.eq_of_toNat_eq
  have := lo.isLt
  have := hi.isLt
  simp only [highByte, BitVec.extractLsb'_toNat, u16_toNat, Nat.shiftRight_eq_div_pow]
  omega

theorem stuff_append (p q : List Byte) : stuff (p ++ q) = stuff p ++ stuff q := by
  induction p with
  | nil => rfl
  | cons v p ih => simp [stuff, ih]

theorem wireStream_append (ps qs : List (List Byte)) :
    wireStream (ps ++ qs) = wireStream ps ++ wireStream qs := by
  induction ps with
  | nil => rfl
  | cons p ps ih => simp [wireStream, ih]

end Sys2Proof
end

