-- ==== Sys2Proof/Laws/Memory.lean ====
section
/-! SUPPORT. The buffer: a load after a store (rules R35, R39), and the canonical form kept by every
store. -/

namespace Sys2Proof.Machine

theorem Memory.read_erase_same (m : Memory) (a : Nat) :
    Memory.read (Memory.erase m a) a = unwrittenByte := by
  induction m with
  | nil => rfl
  | cons c rest ih =>
    obtain ⟨k, v⟩ := c
    by_cases hk : k = a
    · simpa [Memory.erase, hk] using ih
    · simpa [Memory.erase, Memory.read, hk] using ih

theorem Memory.read_erase_other (m : Memory) {a a' : Nat} (h : a' ≠ a) :
    Memory.read (Memory.erase m a) a' = Memory.read m a' := by
  induction m with
  | nil => rfl
  | cons c rest ih =>
    obtain ⟨k, v⟩ := c
    by_cases hk : k = a
    · subst hk
      simpa [Memory.erase, Memory.read, Ne.symm h] using ih
    · by_cases hk' : k = a'
      · subst hk'
        simp [Memory.erase, Memory.read, hk]
      · simpa [Memory.erase, Memory.read, hk, hk'] using ih

theorem Memory.read_insert_other (m : Memory) {a a' : Nat} (v : Byte) (h : a' ≠ a) :
    Memory.read (Memory.insert m a v) a' = Memory.read m a' := by
  induction m with
  | nil => simp [Memory.insert, Memory.read, Ne.symm h]
  | cons c rest ih =>
    obtain ⟨k, u⟩ := c
    by_cases hlt : a < k
    · simp [Memory.insert, Memory.read, hlt, Ne.symm h]
    · by_cases hk' : k = a'
      · subst hk'
        simp [Memory.insert, Memory.read, hlt]
      · simpa [Memory.insert, Memory.read, hlt, hk'] using ih

theorem Memory.read_insert_erased (m : Memory) (a : Nat) (v : Byte) :
    Memory.read (Memory.insert (Memory.erase m a) a v) a = v := by
  induction m with
  | nil => simp [Memory.erase, Memory.insert, Memory.read]
  | cons c rest ih =>
    obtain ⟨k, u⟩ := c
    by_cases hk : k = a
    · simpa [Memory.erase, hk] using ih
    · by_cases hlt : a < k
      · simp [Memory.erase, Memory.insert, Memory.read, hk, hlt]
      · simpa [Memory.erase, Memory.insert, Memory.read, hk, hlt] using ih

/-- A load gives the byte last stored at its offset. -/
@[simp] theorem Memory.read_write_same (m : Memory) (a : Nat) (v : Byte) :
    Memory.read (Memory.write m a v) a = v := by
  unfold Memory.write
  split
  · next h => rw [Memory.read_erase_same, h]
  · exact Memory.read_insert_erased m a v

/-- A store leaves every other offset alone. -/
theorem Memory.read_write_other (m : Memory) {a a' : Nat} (v : Byte) (h : a' ≠ a) :
    Memory.read (Memory.write m a v) a' = Memory.read m a' := by
  unfold Memory.write
  split
  · exact Memory.read_erase_other m h
  · rw [Memory.read_insert_other _ v h, Memory.read_erase_other m h]

theorem Memory.wfFrom_weaken {m : Memory} {low low' : Nat} (hl : low' ≤ low)
    (h : Memory.wfFrom low m = true) : Memory.wfFrom low' m = true := by
  cases m with
  | nil => rfl
  | cons c rest =>
    obtain ⟨k, v⟩ := c
    simp only [Memory.wfFrom, Bool.and_eq_true, decide_eq_true_eq] at h ⊢
    exact ⟨⟨⟨by omega, h.1.1.2⟩, h.1.2⟩, h.2⟩

theorem Memory.wfFrom_erase {m : Memory} (a : Nat) {low : Nat} (h : Memory.wfFrom low m = true) :
    Memory.wfFrom low (Memory.erase m a) = true := by
  induction m generalizing low with
  | nil => rfl
  | cons c rest ih =>
    obtain ⟨k, v⟩ := c
    simp only [Memory.wfFrom, Bool.and_eq_true, decide_eq_true_eq] at h
    by_cases hk : k = a
    · simpa [Memory.erase, hk] using ih (Memory.wfFrom_weaken (by omega) h.2)
    · simp only [Memory.erase, hk, if_false, Memory.wfFrom, Bool.and_eq_true, decide_eq_true_eq]
      exact ⟨h.1, ih h.2⟩

theorem Memory.wfFrom_insert_erased {m : Memory} {a low : Nat} {v : Byte}
    (hm : Memory.wfFrom low m = true) (hlow : low ≤ a) (ha : a < cap) (hv : v ≠ unwrittenByte) :
    Memory.wfFrom low (Memory.insert (Memory.erase m a) a v) = true := by
  induction m generalizing low with
  | nil =>
    simp only [Memory.erase, Memory.insert, Memory.wfFrom, Bool.and_eq_true, decide_eq_true_eq]
    exact ⟨⟨⟨hlow, ha⟩, hv⟩, trivial⟩
  | cons c rest ih =>
    obtain ⟨k, u⟩ := c
    simp only [Memory.wfFrom, Bool.and_eq_true, decide_eq_true_eq] at hm
    by_cases hk : k = a
    · simpa [Memory.erase, hk] using ih (Memory.wfFrom_weaken (by omega) hm.2) hlow
    · by_cases hlt : a < k
      · simp only [Memory.erase, hk, if_false, Memory.insert, hlt, if_true, Memory.wfFrom,
          Bool.and_eq_true, decide_eq_true_eq]
        exact ⟨⟨⟨hlow, ha⟩, hv⟩, ⟨⟨by omega, hm.1.1.2⟩, hm.1.2⟩, Memory.wfFrom_erase a hm.2⟩
      · simp only [Memory.erase, hk, if_false, Memory.insert, hlt, Memory.wfFrom,
          Bool.and_eq_true, decide_eq_true_eq]
        exact ⟨hm.1, ih hm.2 (by omega)⟩

/-- A store to a cell that exists keeps the canonical form. -/
theorem Memory.wf_write {m : Memory} {a : Nat} (v : Byte) (hm : Memory.wf m = true) (ha : a < cap) :
    Memory.wf (Memory.write m a v) = true := by
  unfold Memory.write Memory.wf
  split
  · exact Memory.wfFrom_erase a hm
  · next hv => exact Memory.wfFrom_insert_erased hm (Nat.zero_le a) ha hv

/-- Storing a sequence that fits the buffer keeps the canonical form. -/
theorem Memory.wf_writeAll {m : Memory} {a : Nat} (vs : List Byte) (hm : Memory.wf m = true)
    (ha : a + vs.length ≤ cap) : Memory.wf (Memory.writeAll m a vs) = true := by
  induction vs generalizing m a with
  | nil => exact hm
  | cons v vs ih =>
    rw [List.length_cons] at ha
    exact ih (Memory.wf_write v hm (by omega)) (by omega)

/-- A sequence of stores leaves every lower offset alone. -/
theorem Memory.read_writeAll_below (m : Memory) (a : Nat) (vs : List Byte) {a' : Nat} (h : a' < a) :
    Memory.read (Memory.writeAll m a vs) a' = Memory.read m a' := by
  induction vs generalizing m a with
  | nil => rfl
  | cons v vs ih =>
    rw [Memory.writeAll, ih _ _ (by omega), Memory.read_write_other _ _ (by omega)]

/-- A load gives the byte of the stored sequence at its offset. -/
theorem Memory.read_writeAll (m : Memory) (a : Nat) (vs : List Byte) {i : Nat} (h : i < vs.length) :
    Memory.read (Memory.writeAll m a vs) (a + i) = vs[i] := by
  induction vs generalizing m a i with
  | nil => simp at h
  | cons v vs ih =>
    cases i with
    | zero => simp [Memory.writeAll, Memory.read_writeAll_below]
    | succ j =>
      have hj : j < vs.length := by simpa using h
      have := ih (Memory.write m a v) (a + 1) hj
      simpa [Memory.writeAll, Nat.add_assoc, Nat.add_comm 1 j] using this

end Sys2Proof.Machine
end

