-- ==== Sys2Proof/Laws/State.lean ====
section
/-! SUPPORT. The register updates of Machine/Ops.lean read back field by field, one lemma per field
and update, so that no proof unfolds a record update. -/

namespace Sys2Proof.Machine

variable (s : State)

@[simp] theorem State.setFstate_fstate (f : FState) : (s.setFstate f).fstate = f := rfl
@[simp] theorem State.setFstate_wr (f : FState) : (s.setFstate f).wr = s.wr := rfl
@[simp] theorem State.setFstate_buf (f : FState) : (s.setFstate f).buf = s.buf := rfl
@[simp] theorem State.setFstate_lc (f : FState) : (s.setFstate f).lc = s.lc := rfl
@[simp] theorem State.setFstate_trace (f : FState) : (s.setFstate f).trace = s.trace := rfl
@[simp] theorem State.setFstate_params (f : FState) : (s.setFstate f).params = s.params := rfl
@[simp] theorem State.setFstate_pending (f : FState) : (s.setFstate f).pending = s.pending := rfl

@[simp] theorem State.setWr_fstate (n : Nat) : (s.setWr n).fstate = s.fstate := rfl
@[simp] theorem State.setWr_wr (n : Nat) : (s.setWr n).wr = n := rfl
@[simp] theorem State.setWr_buf (n : Nat) : (s.setWr n).buf = s.buf := rfl
@[simp] theorem State.setWr_lc (n : Nat) : (s.setWr n).lc = s.lc := rfl
@[simp] theorem State.setWr_trace (n : Nat) : (s.setWr n).trace = s.trace := rfl
@[simp] theorem State.setWr_params (n : Nat) : (s.setWr n).params = s.params := rfl
@[simp] theorem State.setWr_pending (n : Nat) : (s.setWr n).pending = s.pending := rfl

@[simp] theorem State.setLc_fstate (c : Color) : (s.setLc c).fstate = s.fstate := rfl
@[simp] theorem State.setLc_wr (c : Color) : (s.setLc c).wr = s.wr := rfl
@[simp] theorem State.setLc_buf (c : Color) : (s.setLc c).buf = s.buf := rfl
@[simp] theorem State.setLc_lc (c : Color) : (s.setLc c).lc = c := rfl
@[simp] theorem State.setLc_trace (c : Color) : (s.setLc c).trace = s.trace := rfl
@[simp] theorem State.setLc_params (c : Color) : (s.setLc c).params = s.params := rfl
@[simp] theorem State.setLc_pending (c : Color) : (s.setLc c).pending = s.pending := rfl

@[simp] theorem State.store_fstate (a : Nat) (v : Byte) : (s.store a v).fstate = s.fstate := rfl
@[simp] theorem State.store_wr (a : Nat) (v : Byte) : (s.store a v).wr = s.wr := rfl
@[simp] theorem State.store_buf (a : Nat) (v : Byte) : (s.store a v).buf = Memory.write s.buf a v := rfl
@[simp] theorem State.store_lc (a : Nat) (v : Byte) : (s.store a v).lc = s.lc := rfl
@[simp] theorem State.store_trace (a : Nat) (v : Byte) : (s.store a v).trace = s.trace := rfl
@[simp] theorem State.store_params (a : Nat) (v : Byte) : (s.store a v).params = s.params := rfl
@[simp] theorem State.store_pending (a : Nat) (v : Byte) : (s.store a v).pending = s.pending := rfl

@[simp] theorem State.setPending_fstate (moves : List HostMove) : (s.setPending moves).fstate = s.fstate := rfl
@[simp] theorem State.setPending_wr (moves : List HostMove) : (s.setPending moves).wr = s.wr := rfl
@[simp] theorem State.setPending_buf (moves : List HostMove) : (s.setPending moves).buf = s.buf := rfl
@[simp] theorem State.setPending_lc (moves : List HostMove) : (s.setPending moves).lc = s.lc := rfl
@[simp] theorem State.setPending_trace (moves : List HostMove) : (s.setPending moves).trace = s.trace := rfl
@[simp] theorem State.setPending_params (moves : List HostMove) : (s.setPending moves).params = s.params := rfl
@[simp] theorem State.setPending_pending (moves : List HostMove) : (s.setPending moves).pending = moves := rfl

@[simp] theorem State.emit_fstate (e : Event) : (s.emit e).fstate = s.fstate := rfl
@[simp] theorem State.emit_wr (e : Event) : (s.emit e).wr = s.wr := rfl
@[simp] theorem State.emit_buf (e : Event) : (s.emit e).buf = s.buf := rfl
@[simp] theorem State.emit_lc (e : Event) : (s.emit e).lc = s.lc := rfl
@[simp] theorem State.emit_trace (e : Event) : (s.emit e).trace = s.trace ++ [e] := rfl
@[simp] theorem State.emit_params (e : Event) : (s.emit e).params = s.params := rfl
@[simp] theorem State.emit_pending (e : Event) : (s.emit e).pending = s.pending := rfl

@[simp] theorem State.clearTrace_fstate : (s.clearTrace).fstate = s.fstate := rfl
@[simp] theorem State.clearTrace_wr : (s.clearTrace).wr = s.wr := rfl
@[simp] theorem State.clearTrace_buf : (s.clearTrace).buf = s.buf := rfl
@[simp] theorem State.clearTrace_lc : (s.clearTrace).lc = s.lc := rfl
@[simp] theorem State.clearTrace_trace : (s.clearTrace).trace = [] := rfl
@[simp] theorem State.clearTrace_params : (s.clearTrace).params = s.params := rfl
@[simp] theorem State.clearTrace_pending : (s.clearTrace).pending = s.pending := rfl

@[simp] theorem State.clear_fstate : (s.clear).fstate = s.fstate := rfl
@[simp] theorem State.clear_wr : (s.clear).wr = 0 := rfl
@[simp] theorem State.clear_buf : (s.clear).buf = s.buf := rfl
@[simp] theorem State.clear_lc : (s.clear).lc = s.lc := rfl
@[simp] theorem State.clear_trace : (s.clear).trace = s.trace := rfl
@[simp] theorem State.clear_params : (s.clear).params = s.params := rfl
@[simp] theorem State.clear_pending : (s.clear).pending = s.pending := rfl

end Sys2Proof.Machine
end

