-- ==== Sys2Proof/Laws/Ops.lean ====
section
/-! SUPPORT. One lemma per shared operation that says once everything it does; later proofs cite
these and do not unfold the operation. -/

namespace Sys2Proof.Machine

/-! ### Faults -/

theorem raise_framingViolation (s : State) :
    raise .framingViolation s = ((s.emit (.diag .framingViolation)).clear).setFstate .recovering :=
  rfl

theorem raise_overrun (s : State) :
    raise .overrun s = ((s.emit (.diag .overrun)).clear).setFstate .recovering := rfl

theorem raise_malformedLength (op : Option Byte) (len : Nat) (s : State) :
    raise (.malformedLength op len) s = s.emit (.diag (.malformedLength op len)) := rfl

theorem raise_unknownOpcode (op : Byte) (len : Nat) (s : State) :
    raise (.unknownOpcode op len) s = s.emit (.diag (.unknownOpcode op len)) := rfl

theorem recover_eq (s : State) :
    recover s = ((s.emit (.diag .recovered)).clear).setFstate .normal := rfl

@[simp] theorem raise_trace (d : Diag) (s : State) : (raise d s).trace = s.trace ++ [.diag d] := by
  cases d <;> rfl

@[simp] theorem raise_buf (d : Diag) (s : State) : (raise d s).buf = s.buf := by cases d <;> rfl

@[simp] theorem raise_lc (d : Diag) (s : State) : (raise d s).lc = s.lc := by cases d <;> rfl

@[simp] theorem raise_params (d : Diag) (s : State) : (raise d s).params = s.params := by
  cases d <;> rfl

@[simp] theorem raise_pending (d : Diag) (s : State) : (raise d s).pending = s.pending := by
  cases d <;> rfl

/-! ### The append -/

theorem append_of_lt {s : State} (v : Byte) (h : s.wr < cap) :
    append v s = ((s.store s.wr v).setWr (s.wr + 1)).setFstate .normal := if_pos h

theorem append_of_full {s : State} (v : Byte) (h : ¬ s.wr < cap) :
    append v s = raise .overrun s := if_neg h

/-! ### Resets -/

theorem softReset_clears {s : State} (h : s.params.softResetClearsColor = true) :
    softReset s = ((s.setFstate .normal).setWr 0).setLc s.params.lastColorReset := if_pos h

theorem softReset_keeps {s : State} (h : s.params.softResetClearsColor = false) :
    softReset s = (s.setFstate .normal).setWr 0 := by
  unfold softReset; rw [h]; rfl

/-! ### Operands -/

@[simp] theorem memReadBlock_length (s : State) (a n : Nat) : (memReadBlock s a n).length = n := by
  simp [memReadBlock]

theorem memReadBlock_getElem (s : State) (a n i : Nat) (h : i < (memReadBlock s a n).length) :
    (memReadBlock s a n)[i] = memRead1 s (a + i) := by
  simp [memReadBlock]

theorem memReadBlock_succ (s : State) (a n : Nat) :
    memReadBlock s a (n + 1) = memRead1 s a :: memReadBlock s (a + 1) n := by
  simp only [memReadBlock, List.range_succ_eq_map, List.map_cons, Nat.add_zero, List.map_map]
  congr 1
  apply List.map_congr_left
  intro i _
  simp only [Function.comp, Nat.succ_eq_add_one]
  congr 1
  omega

@[simp] theorem memReadBlock_zero (s : State) (a : Nat) : memReadBlock s a 0 = [] := rfl

/-- Rule R37: the frame has `WR` bytes. -/
@[simp] theorem State.frame_length (s : State) : s.frame.length = s.wr := by simp [State.frame]

/-- The frame depends on `WR` and the cells below it alone. -/
theorem State.frame_congr {s t : State} (hw : s.wr = t.wr)
    (h : ∀ a, a < s.wr → Memory.read s.buf a = Memory.read t.buf a) : s.frame = t.frame := by
  unfold State.frame memReadBlock
  rw [← hw]
  apply List.map_congr_left
  intro i hi
  rw [List.mem_range] at hi
  simpa [memRead1] using h i hi

/-! ### The command decoder and its dispatch -/

theorem execFrame_eq_exec (i : Instr) (hf : i.isFrame = true) (s : State) :
    execFrame i hf s = exec i s := by
  cases i <;> first | rfl | cases hf

theorem runDecoder_eq_exec {s : State} (h : s.wr ≤ cap) :
    runDecoder s = exec (decodeFrame s.params s.frame) s := by
  unfold runDecoder
  rw [if_pos (by simpa [frameExists] using h), execFrame_eq_exec]

theorem runDecoder_absent {s : State} (h : cap < s.wr) : runDecoder s = .fault (.absentCell cap) := by
  unfold runDecoder
  exact if_neg (by simpa [frameExists] using h)

/-- What a frame command can do (rule R86): it goes on, touching at most Last Color and the trace. -/
theorem exec_frame_cases {i : Instr} (hf : i.isFrame = true) (s : State) :
    ∃ c, (exec i s = .next (s.setLc c) ∧ c = s.lc ∧ ∃ j0 j1, i = .jpad3 j0 j1) ∨
      ∃ e, exec i s = .next ((s.setLc c).emit e) ∧
        (c = s.lc ∨ (∃ x y w h r g b, i = .rect12 x y w h r g b ∧ c = ⟨r, g, b⟩) ∨
          ∃ x y r g b pad, i = .rect9 x y r g b pad ∧ c = ⟨r, g, b⟩) := by
  cases i
  case rect12 x y w h r g b =>
    exact ⟨⟨r, g, b⟩, .inr ⟨_, rfl, .inr (.inl ⟨x, y, w, h, r, g, b, rfl, rfl⟩)⟩⟩
  case rect9 x y r g b pad =>
    exact ⟨⟨r, g, b⟩, .inr ⟨_, rfl, .inr (.inr ⟨x, y, r, g, b, pad, rfl, rfl⟩)⟩⟩
  case jpad3 j0 j1 => exact ⟨s.lc, .inl ⟨rfl, rfl, j0, j1, rfl⟩⟩
  case nEnd => cases hf
  case nEsc => cases hf
  case nData => cases hf
  case eDelim => cases hf
  case eEsc => cases hf
  case eBad => cases hf
  case rEnd => cases hf
  case rSkip => cases hf
  all_goals exact ⟨s.lc, .inr ⟨_, rfl, .inl rfl⟩⟩

/-! ### Sequencing -/

theorem andThen_next {o : Host.Outcome State Fault Refusal}
    {f : State → Host.Outcome State Fault Refusal} {t : State} (h : andThen o f = .next t) :
    ∃ u, o = .next u ∧ f u = .next t := by
  cases o with
  | next u => exact ⟨u, rfl, h⟩
  | fault r => cases h
  | refused r => cases h

theorem process_cons (b : Byte) (bs : List Byte) (s : State) :
    process (b :: bs) s = andThen (stepByte b s) (process bs) := rfl

/-- What one byte can do: the inversion of `N.END` and of the other seven symbols. -/
theorem stepByte_cases (b : Byte) (s : State) :
    (s.fstate = .normal ∧ b = delim ∧ stepByte b s = execNEnd s) ∨
    (s.fstate = .normal ∧ b = esc ∧ stepByte b s = .next (s.setFstate .escaped)) ∨
    (s.fstate = .normal ∧ b ≠ delim ∧ b ≠ esc ∧ stepByte b s = .next (append b s)) ∨
    (s.fstate = .escaped ∧ b = escDelim ∧ stepByte b s = .next (append delim s)) ∨
    (s.fstate = .escaped ∧ b = escEsc ∧ stepByte b s = .next (append esc s)) ∨
    (s.fstate = .escaped ∧ b ≠ escDelim ∧ b ≠ escEsc ∧
      stepByte b s = .next (raise .framingViolation s)) ∨
    (s.fstate = .recovering ∧ b = delim ∧ stepByte b s = .next (recover s)) ∨
    (s.fstate = .recovering ∧ b ≠ delim ∧ stepByte b s = .next s) := by
  unfold stepByte decodeSymbol
  cases hf : s.fstate with
  | normal =>
    by_cases h1 : b = delim
    · simp [h1, exec]
    · by_cases h2 : b = esc
      · simp [h2, exec, execNEsc, show ¬ esc = delim by decide]
      · simp [h1, h2, exec, execNData]
  | escaped =>
    by_cases h1 : b = escDelim
    · simp [h1, exec, execEDelim]
    · by_cases h2 : b = escEsc
      · simp [h2, exec, execEEsc, show ¬ escEsc = escDelim by decide]
      · simp [h1, h2, exec, execEBad]
  | recovering =>
    by_cases h1 : b = delim
    · simp [h1, exec, execREnd]
    · simp [h1, exec, execRSkip]

end Sys2Proof.Machine
end

