-- ==== Sys2Proof/Laws/PerInstr.lean ====
section
/-! SUPPORT. Facts about every instruction as syntax, one lemma per constructor. Family `Level`: the
encoding of a well-formed instruction is at the level the instruction belongs to (rule R45), and a
frame fits the accumulation buffer (rule R49). -/

namespace Sys2Proof.Laws.Level

/-- The encoding is at the instruction's own level, and a frame fits the buffer. -/
def Statement (i : Instr) : Prop :=
  ∀ cfg : Config, i.wf cfg = true →
    match encode cfg i with
    | .symbol _ _ => i.isFrame = false
    | .frame p => i.isFrame = true ∧ p.length ≤ cap

theorem nEnd : Statement .nEnd := fun _ _ => rfl

theorem nEsc : Statement .nEsc := fun _ _ => rfl

theorem nData (b : Byte) : Statement (.nData b) := fun _ _ => rfl

theorem eDelim : Statement .eDelim := fun _ _ => rfl

theorem eEsc : Statement .eEsc := fun _ _ => rfl

theorem eBad (b : Byte) : Statement (.eBad b) := fun _ _ => rfl

theorem rEnd : Statement .rEnd := fun _ _ => rfl

theorem rSkip (b : Byte) : Statement (.rSkip b) := fun _ _ => rfl

theorem rect12 (x y w h : Half) (r g b : Byte) : Statement (.rect12 x y w h r g b) :=
  fun _ _ => ⟨rfl, by simp [cap_eq]⟩

theorem rect9 (x y : Half) (r g b pad : Byte) : Statement (.rect9 x y r g b pad) := by
  intro cfg _
  refine ⟨rfl, ?_⟩
  cases cfg.rect9RgbBase <;> simp [rect9Tail, cap_eq]

theorem rect5 (x y : Half) : Statement (.rect5 x y) := fun _ _ => ⟨rfl, by simp [cap_eq]⟩

theorem rectBad (rest : List Byte) : Statement (.rectBad rest) := by
  intro cfg h
  have : 1 + rest.length ≤ cap := (of_decide_eq_true h).1
  exact ⟨rfl, by simp only [List.length_cons]; omega⟩

theorem text12 (c : Byte) (x y : Half) (r g b t0 t1 t2 : Byte) :
    Statement (.text12 c x y r g b t0 t1 t2) := fun _ _ => ⟨rfl, by simp [cap_eq]⟩

theorem textBad (rest : List Byte) : Statement (.textBad rest) := by
  intro cfg h
  have : 1 + rest.length ≤ cap := (of_decide_eq_true h).1
  exact ⟨rfl, by simp only [List.length_cons]; omega⟩

theorem wave (p1 p2 p3 : Byte) (samples : List Byte) : Statement (.wave p1 p2 p3 samples) := by
  intro cfg h
  have : samples.length ≤ waveMax := of_decide_eq_true h
  exact ⟨rfl, by simp only [List.length_cons]; rw [waveMax_eq] at this; rw [cap_eq]; omega⟩

theorem waveBad (rest : List Byte) : Statement (.waveBad rest) := by
  intro cfg h
  have : 1 + rest.length ≤ cap := (of_decide_eq_true h).1
  exact ⟨rfl, by simp only [List.length_cons]; omega⟩

theorem jpad3 (j0 j1 : Byte) : Statement (.jpad3 j0 j1) := fun _ _ => ⟨rfl, by simp [cap_eq]⟩

theorem jpadBad (rest : List Byte) : Statement (.jpadBad rest) := by
  intro cfg h
  have : 1 + rest.length ≤ cap := (of_decide_eq_true h).1
  exact ⟨rfl, by simp only [List.length_cons]; omega⟩

theorem sys (a1 a2 a3 a4 f : Byte) (tail : List Byte) : Statement (.sys a1 a2 a3 a4 f tail) := by
  intro cfg h
  have : 6 + tail.length ≤ cap := (of_decide_eq_true h).1
  exact ⟨rfl, by simp only [List.length_cons]; omega⟩

theorem sysShort (rest : List Byte) : Statement (.sysShort rest) := by
  intro cfg h
  have : 1 + rest.length ≤ cap := (of_decide_eq_true h).1
  exact ⟨rfl, by simp only [List.length_cons]; omega⟩

theorem empty : Statement .empty := fun _ _ => ⟨rfl, by simp [cap_eq]⟩

theorem unknown (op : Byte) (rest : List Byte) : Statement (.unknown op rest) := by
  intro cfg h
  have : 1 + rest.length ≤ cap := (of_decide_eq_true h).1
  exact ⟨rfl, by simp only [List.length_cons]; omega⟩

end Sys2Proof.Laws.Level
end

