-- ==== Sys2Proof/Laws/Signals.lean ====
section
/-! SUPPORT. What the operations of the signal-level interface do, one lemma per case, and the pin
`in_ready` in terms of the interface's state. -/

namespace Sys2Proof.Machine

/-! ### The cause code (rule R122) -/

@[simp] theorem causeCode_none : causeCode none = 0 := rfl

@[simp] theorem causeCode_some (d : Diag) : causeCode (some d) = d.code := rfl

/-! ### The event of a step -/

theorem newEvent_of_silent {s t : State} (h : t.trace = s.trace) : newEvent s t = none := by
  simp [newEvent, h]

theorem newEvent_of_emits {s t : State} {e : Event} (h : t.trace = s.trace ++ [e]) :
    newEvent s t = some e := by
  simp [newEvent, h]

/-! ### The start of a delivery -/

theorem startDelivery_silent (dispatched : Bool) {s t : State} (h : newEvent s t = none) :
    startDelivery dispatched s t = ⟨t, .idle, false, none⟩ := by
  unfold startDelivery; rw [h]

theorem startDelivery_report {s t : State} {d : Diag} (h : newEvent s t = some (.diag d)) :
    startDelivery true s t = ⟨t.setWr s.wr, .report, false, some d⟩ := by
  unfold startDelivery; rw [h]; rfl

theorem startDelivery_notice {s t : State} {d : Diag} (h : newEvent s t = some (.diag d)) :
    startDelivery false s t = ⟨t, .idle, false, some d⟩ := by
  unfold startDelivery; rw [h]; rfl

theorem startDelivery_command (dispatched : Bool) {s t : State} {e : Event}
    (h : newEvent s t = some e) (he : ∀ d, e ≠ .diag d) :
    startDelivery dispatched s t = ⟨t.setWr s.wr, .command e, false, none⟩ := by
  unfold startDelivery
  rw [h]
  cases e with
  | diag d => exact absurd rfl (he d)
  | _ => rfl

/-! ### What follows a command or a beat that is taken -/

@[simp] theorem nextBeat_nil (held : Bool) (σ : SignalState) :
    nextBeat held [] σ = endDelivery held σ := rfl

@[simp] theorem nextBeat_cons (held : Bool) (v : Byte) (vs : List Byte) (σ : SignalState) :
    nextBeat held (v :: vs) σ = ⟨σ.core, .samples v vs, held, none⟩ := rfl

@[simp] theorem afterCommand_wave (held : Bool) (p1 p2 p3 : Byte) (block : List Byte)
    (σ : SignalState) : afterCommand held (.wave p1 p2 p3 block) σ = nextBeat held block σ := rfl

theorem afterCommand_plain (held : Bool) {e : Event} (σ : SignalState)
    (he : ∀ p1 p2 p3 block, e ≠ .wave p1 p2 p3 block) :
    afterCommand held e σ = endDelivery held σ := by
  cases e with
  | wave p1 p2 p3 block => exact absurd rfl (he p1 p2 p3 block)
  | _ => rfl

/-! ### The pins -/

@[simp] theorem driveDiag_inReady (d : Diag) (o : SignalOut) : (driveDiag d o).inReady = o.inReady :=
  rfl

@[simp] theorem driveCommand_inReady (e : Event) (o : SignalOut) :
    (driveCommand e o).inReady = o.inReady := by
  cases e <;> rfl

@[simp] theorem quietOut_inReady (ready : Bool) : (quietOut ready).inReady = ready := rfl

/-- The pin `in_ready` is the condition the block takes a byte on. -/
theorem outputs_inReady (i : SignalIn) (σ : SignalState) : (outputs i σ).inReady = inReady i σ := by
  obtain ⟨core, del, held, report⟩ := σ
  unfold outputs
  split
  · next h => simp [inReady, h]
  · cases report <;> cases del <;> simp

end Sys2Proof.Machine
end

