-- ==== Sys2Proof/Tests/Slice0.lean ====
section
/-! SUPPORT. The model's own tests: ill-formed terms that WellFormed refuses, words written out from
spec/30_encoding.md with what they decode to, steps with results taken from spec/95_test_vectors.md,
and for every statement with hypotheses a state and operands that meet them together. -/

namespace Sys2Proof.Tests

open Sys2Proof.Machine

-- One theorem after another: checked side by side, so many `decide`s each hold a thread of their own.
set_option Elab.async false

/-! ### Small states -/

/-- The block in `(f, n)` with the cells `buf`. -/
def block (f : FState) (n : Nat) (buf : Memory) : State :=
  { State.reset with fstate := f, wr := n, buf := buf }

/-- `(Normal, |p|)` with the frame `p` in the buffer and Last Color `c`. -/
def framed (c : Color) (p : List Byte) : State :=
  { State.reset with wr := p.length, buf := Memory.writeAll [] 0 p, lc := c }

/-- Parameters with `RECT9_RGB_BASE` = 6. -/
def baseSix : Config := { Config.default with rect9RgbBase := .six }

/-- Parameters with `SOFT_RESET_CLEARS_COLOR` = false. -/
def keepColor : Config := { Config.default with softResetClearsColor := false }

/-- Some colour, not the reset value. -/
def tan : Color := ⟨10, 20, 30⟩

/-- The next state, if there is one. -/
def next? {α : Type} (o : Host.Outcome α Fault Refusal) : Option α :=
  match o with
  | .next t => some t
  | .fault _ => none
  | .refused _ => none

/-- What the vectors of spec/95_test_vectors.md show of a run: the trace, `(FSTATE, WR)`, `LC`. -/
def shown (o : Host.Outcome State Fault Refusal) : Option (List Event × (FState × Nat) × Color) :=
  (next? o).map fun t => (t.trace, (t.fstate, t.wr), t.lc)

/-- The same of a frame dispatched by the delimiter. -/
def dispatched (c : Color) (p : List Byte) : Option (List Event × (FState × Nat) × Color) :=
  shown (stepByte 0xC0 (framed c p))

/-! ### WellFormed refuses ill-formed terms -/

theorem test_wf_refuses_nData_delim : (Instr.nData 0xC0).wf .default = false := by decide
theorem test_wf_refuses_nData_esc : (Instr.nData 0xDB).wf .default = false := by decide
theorem test_wf_refuses_eBad_escDelim : (Instr.eBad 0xDC).wf .default = false := by decide
theorem test_wf_refuses_eBad_escEsc : (Instr.eBad 0xDD).wf .default = false := by decide
theorem test_wf_refuses_rSkip_delim : (Instr.rSkip 0xC0).wf .default = false := by decide
theorem test_wf_refuses_rectBad_5 : (Instr.rectBad [1, 0, 2, 0]).wf .default = false := by decide
theorem test_wf_refuses_rectBad_9 : (Instr.rectBad (List.replicate 8 0)).wf .default = false := by decide
theorem test_wf_refuses_rectBad_12 : (Instr.rectBad (List.replicate 11 0)).wf .default = false := by decide
theorem test_wf_refuses_rectBad_513 : (Instr.rectBad (List.replicate 512 0)).wf .default = false := by
  decide +kernel
theorem test_wf_refuses_textBad_12 : (Instr.textBad (List.replicate 11 0)).wf .default = false := by decide
theorem test_wf_refuses_textBad_513 : (Instr.textBad (List.replicate 512 0)).wf .default = false := by
  decide +kernel
theorem test_wf_refuses_wave_321_samples :
    (Instr.wave 1 2 3 (List.replicate 321 0)).wf .default = false := by
  decide +kernel
theorem test_wf_refuses_waveBad_4 : (Instr.waveBad [1, 2, 3]).wf .default = false := by decide
theorem test_wf_refuses_waveBad_324 : (Instr.waveBad (List.replicate 323 0)).wf .default = false := by
  decide +kernel
theorem test_wf_refuses_waveBad_513 : (Instr.waveBad (List.replicate 512 0)).wf .default = false := by
  decide +kernel
theorem test_wf_refuses_jpadBad_3 : (Instr.jpadBad [1, 2]).wf .default = false := by decide
theorem test_wf_refuses_jpadBad_513 : (Instr.jpadBad (List.replicate 512 0)).wf .default = false := by
  decide +kernel
theorem test_wf_refuses_sys_513 :
    (Instr.sys 0 0 0 0 0 (List.replicate 507 0)).wf .default = false := by
  decide +kernel
theorem test_wf_refuses_sys_below_minimum :
    (Instr.sys 0 0 0 0 0 []).wf { Config.default with sysMinLen := 7 } = false := by decide
theorem test_wf_refuses_sysShort_6 : (Instr.sysShort [0, 0, 0, 0, 0]).wf .default = false := by decide
theorem test_wf_refuses_unknown_assigned : (Instr.unknown 0xFB [1]).wf .default = false := by decide
theorem test_wf_refuses_unknown_513 :
    (Instr.unknown 0x11 (List.replicate 512 0)).wf .default = false := by
  decide +kernel

/-! ### Words written out from rules R46, R48, R50, R51 -/

theorem test_word_nEnd : decode .default (.symbol .normal 0b11000000) = .ok .nEnd := by decide
theorem test_word_nEsc : decode .default (.symbol .normal 0b11011011) = .ok .nEsc := by decide
theorem test_word_nData_dc : decode .default (.symbol .normal 0b11011100) = .ok (.nData 0xDC) := by decide
theorem test_word_eDelim : decode .default (.symbol .escaped 0b11011100) = .ok .eDelim := by decide
theorem test_word_eEsc : decode .default (.symbol .escaped 0b11011101) = .ok .eEsc := by decide
theorem test_word_eBad_c0 : decode .default (.symbol .escaped 0b11000000) = .ok (.eBad 0xC0) := by decide
theorem test_word_eBad_db : decode .default (.symbol .escaped 0b11011011) = .ok (.eBad 0xDB) := by decide
theorem test_word_rEnd : decode .default (.symbol .recovering 0b11000000) = .ok .rEnd := by decide
theorem test_word_rSkip_db : decode .default (.symbol .recovering 0b11011011) = .ok (.rSkip 0xDB) := by decide
/-- R51: x at 1, y at 3, w at 5, h at 7, r at 9, g at 10, b at 11, low byte first. -/
theorem test_word_rect12 :
    decode .default (.frame [0b11111110, 0x01, 0x02, 0x03, 0x04, 0x05, 0x06, 0x07, 0x08, 0x09, 0x0A, 0x0B]) =
      .ok (.rect12 0x0201 0x0403 0x0605 0x0807 0x09 0x0A 0x0B) := by decide
theorem test_word_rect9 :
    decode .default (.frame [0b11111110, 0x34, 0x12, 0xFF, 0xFF, 0xAA, 0xBB, 0xCC, 0x77]) =
      .ok (.rect9 0x1234 0xFFFF 0xAA 0xBB 0xCC 0x77) := by decide
theorem test_word_rect9_base_six :
    decode baseSix (.frame [0b11111110, 0x34, 0x12, 0xFF, 0xFF, 0xAA, 0xBB, 0xCC, 0x77]) =
      .ok (.rect9 0x1234 0xFFFF 0xBB 0xCC 0x77 0xAA) := by decide
theorem test_word_rect5 :
    decode .default (.frame [0b11111110, 0x00, 0x01, 0x00, 0x02]) = .ok (.rect5 256 512) := by decide
theorem test_word_rectBad :
    decode .default (.frame [0b11111110, 1, 2, 3, 4, 5, 6]) = .ok (.rectBad [1, 2, 3, 4, 5, 6]) := by decide
/-- R51: c at 1, x at 2, y at 4, r at 6, g at 7, b at 8. -/
theorem test_word_text12 :
    decode .default (.frame [0b11111101, 0x41, 0x10, 0x00, 0x20, 0x01, 0xFF, 0x80, 0x00, 0x11, 0x22, 0x33]) =
      .ok (.text12 0x41 16 288 255 128 0 0x11 0x22 0x33) := by decide
theorem test_word_textBad :
    decode .default (.frame [0b11111101, 1, 2, 3, 4, 5, 6, 7, 8]) = .ok (.textBad [1, 2, 3, 4, 5, 6, 7, 8]) := by
  decide
theorem test_word_wave :
    decode .default (.frame [0b11111100, 1, 2, 3, 0xC0, 0xDB]) = .ok (.wave 1 2 3 [0xC0, 0xDB]) := by decide
theorem test_word_waveBad : decode .default (.frame [0b11111100, 1, 2]) = .ok (.waveBad [1, 2]) := by decide
theorem test_word_jpad3 : decode .default (.frame [0b11111011, 0x12, 0x34]) = .ok (.jpad3 0x12 0x34) := by decide
theorem test_word_jpadBad : decode .default (.frame [0b11111011, 0x12]) = .ok (.jpadBad [0x12]) := by decide
/-- R110: the font index is at offset 5. -/
theorem test_word_sys :
    decode .default (.frame [0b11111111, 1, 2, 3, 4, 9, 7]) = .ok (.sys 1 2 3 4 9 [7]) := by decide
theorem test_word_sysShort :
    decode .default (.frame [0b11111111, 1, 2, 3, 4]) = .ok (.sysShort [1, 2, 3, 4]) := by decide
theorem test_word_empty : decode .default (.frame []) = .ok .empty := by decide
theorem test_word_unknown : decode .default (.frame [0b11111010]) = .ok (.unknown 0xFA []) := by decide

/-- R47: a literal 0xC0 and a literal 0xDB are each sent as two bytes (S1). -/
theorem test_wire_frame :
    wireFrame [0xFE, 0xC0, 0x00, 0xDB] = [0xFE, 0xDB, 0xDC, 0x00, 0xDB, 0xDD, 0xC0] := by decide

theorem test_table_word_nEnd : decodeTableWord 8 0xC0 = some .nEnd := by decide
theorem test_table_word_eEsc : decodeTableWord 8 0xDD = some .eEsc := by decide
theorem test_table_word_jpad3 : decodeTableWord 8 0xFB = some (.jpad3 0 0) := by decide
theorem test_table_word_sys : decodeTableWord 8 0xFF = some (.sys 0 0 0 0 0 []) := by decide
/-- Byte 0 of the frame is the least significant. -/
theorem test_table_word_rect5 : decodeTableWord 40 0x02000100FE = some (.rect5 256 512) := by decide
theorem test_table_word_half_byte : decodeTableWord 4 0 = none := by decide

theorem test_fetch_word_runs :
    shown (step (State.reset.withFetchWord 8 0xFC)) =
      some ([.wave 0 0 0 []], (.normal, 0), ⟨0, 0, 0⟩) := by decide
theorem test_fetch_word_symbol_runs :
    shown (step (State.reset.withFetchWord 8 0xDC)) = some ([], (.normal, 1), ⟨0, 0, 0⟩) := by decide

/-! ### Steps, with results from spec/95_test_vectors.md and the examples of the rules -/

/-- R61, example. -/
theorem test_nEnd :
    dispatched tan [0xFE, 0x01, 0x00, 0x02, 0x00] =
      some ([.rect 1 2 1 1 10 20 30], (.normal, 0), tan) := by decide
/-- V-O6. -/
theorem test_nEsc_at_full_buffer :
    shown (stepByte 0xDB (block .normal 512 [])) = some ([], (.escaped, 512), ⟨0, 0, 0⟩) := by decide
/-- R63, example and corner case (c). -/
theorem test_nData_stores :
    (next? (stepByte 0xFE (block .normal 511 []))).map (fun t => (t.wr, t.buf)) =
      some (512, [(511, 0xFE)]) := by decide
/-- V-O2. -/
theorem test_nData_overruns :
    shown (stepByte 0x11 (block .normal 512 [])) =
      some ([.diag .overrun], (.recovering, 0), ⟨0, 0, 0⟩) := by decide
/-- R64, example. -/
theorem test_eDelim_stores :
    (next? (stepByte 0xDC (block .escaped 2 []))).map (fun t => (t.fstate, t.wr, t.buf)) =
      some (.normal, 3, [(2, 0xC0)]) := by decide
/-- V-O7. -/
theorem test_eDelim_overruns :
    shown (stepByte 0xDC (block .escaped 512 [])) =
      some ([.diag .overrun], (.recovering, 0), ⟨0, 0, 0⟩) := by decide
/-- R65, example. -/
theorem test_eEsc_stores :
    (next? (stepByte 0xDD (block .escaped 0 []))).map (fun t => (t.fstate, t.wr, t.buf)) =
      some (.normal, 1, [(0, 0xDB)]) := by decide
/-- V-S8. -/
theorem test_eBad_takes_a_delimiter :
    shown (stepByte 0xC0 (block .escaped 2 [])) =
      some ([.diag .framingViolation], (.recovering, 0), ⟨0, 0, 0⟩) := by decide
/-- V-O8. -/
theorem test_eBad_at_full_buffer :
    shown (stepByte 0x00 (block .escaped 512 [])) =
      some ([.diag .framingViolation], (.recovering, 0), ⟨0, 0, 0⟩) := by decide
/-- R67, example. -/
theorem test_rEnd :
    shown (stepByte 0xC0 (block .recovering 0 [])) =
      some ([.diag .recovered], (.normal, 0), ⟨0, 0, 0⟩) := by decide
/-- V-S9. -/
theorem test_rSkip :
    shown (process [0xDB, 0xDC, 0xDD, 0xFE, 0x00] (block .recovering 0 [])) =
      some ([], (.recovering, 0), ⟨0, 0, 0⟩) := by decide
/-- V-R1. -/
theorem test_rect12 :
    dispatched ⟨0, 0, 0⟩ [0xFE, 0x05, 0x00, 0x06, 0x00, 0x07, 0x00, 0x08, 0x00, 0x0A, 0x14, 0x1E] =
      some ([.rect 5 6 7 8 10 20 30], (.normal, 0), tan) := by decide
/-- V-R12. -/
theorem test_rect12_high_byte :
    dispatched tan [0xFE, 0x00, 0x01, 0x00, 0x01, 0x01, 0x00, 0x01, 0x00, 0x00, 0x00, 0x00] =
      some ([.rect 256 256 1 1 0 0 0], (.normal, 0), ⟨0, 0, 0⟩) := by decide
/-- V-R4. -/
theorem test_rect9 :
    dispatched tan [0xFE, 0x34, 0x12, 0xFF, 0xFF, 0xAA, 0xBB, 0xCC, 0x77] =
      some ([.rect 4660 65535 1 1 170 187 204], (.normal, 0), ⟨170, 187, 204⟩) := by decide
/-- V-R5. -/
theorem test_rect9_base_six :
    shown (stepByte 0xC0
      { framed tan [0xFE, 0x34, 0x12, 0xFF, 0xFF, 0xAA, 0xBB, 0xCC, 0x77] with params := baseSix }) =
      some ([.rect 4660 65535 1 1 187 204 119], (.normal, 0), ⟨187, 204, 119⟩) := by decide
/-- V-R6. -/
theorem test_rect5 :
    dispatched tan [0xFE, 0x01, 0x00, 0x02, 0x00] =
      some ([.rect 1 2 1 1 10 20 30], (.normal, 0), tan) := by decide
/-- V-R8. -/
theorem test_rectBad_7 :
    dispatched tan [0xFE, 0x01, 0x00, 0x02, 0x00, 0x03, 0x04] =
      some ([.diag (.malformedLength (some 0xFE) 7)], (.normal, 0), tan) := by decide
/-- S7, V-R9. -/
theorem test_rectBad_8 :
    dispatched tan [0xFE, 0x0A, 0x00, 0x14, 0x00, 0x01, 0x01, 0x01] =
      some ([.diag (.malformedLength (some 0xFE) 8)], (.normal, 0), tan) := by decide
/-- V-T1. -/
theorem test_text12 :
    dispatched tan [0xFD, 0x41, 0x10, 0x00, 0x20, 0x01, 0xFF, 0x80, 0x00, 0x11, 0x22, 0x33] =
      some ([.text 65 16 288 255 128 0], (.normal, 0), tan) := by decide
/-- V-T3. -/
theorem test_textBad :
    dispatched tan [0xFD, 0x41, 0x10, 0x00, 0x20, 0x01, 0xFF, 0x80, 0x00] =
      some ([.diag (.malformedLength (some 0xFD) 9)], (.normal, 0), tan) := by decide
/-- V-W1. -/
theorem test_wave_empty_block :
    dispatched tan [0xFC, 0x01, 0x02, 0x03] = some ([.wave 1 2 3 []], (.normal, 0), tan) := by decide
/-- V-W7. -/
theorem test_wave :
    dispatched tan [0xFC, 0x07, 0x08, 0x09, 0x10, 0xC0, 0xDB, 0x20] =
      some ([.wave 7 8 9 [0x10, 0xC0, 0xDB, 0x20]], (.normal, 0), tan) := by decide
/-- V-W5. -/
theorem test_waveBad :
    dispatched tan [0xFC, 0x01, 0x02] =
      some ([.diag (.malformedLength (some 0xFC) 3)], (.normal, 0), tan) := by decide
/-- V-J1. -/
theorem test_jpad3 : dispatched tan [0xFB, 0x12, 0x34] = some ([], (.normal, 0), tan) := by decide
/-- V-J2. -/
theorem test_jpadBad :
    dispatched tan [0xFB, 0x12] =
      some ([.diag (.malformedLength (some 0xFB) 2)], (.normal, 0), tan) := by decide
/-- V-Y1. -/
theorem test_sys : dispatched tan [0xFF, 0x01, 0x02, 0x03, 0x04, 0x05] = some ([.font 5], (.normal, 0), tan) := by
  decide
/-- V-Y2. -/
theorem test_sys_tail :
    dispatched tan [0xFF, 0x01, 0x02, 0x03, 0x04, 0x09, 0x07] = some ([.font 9], (.normal, 0), tan) := by decide
/-- V-Y6: cell 5 still holds 0x2A, and is not read. -/
theorem test_sysShort_with_stale_font :
    shown (stepByte 0xC0 (block .normal 2 [(0, 0xFF), (1, 0x01), (5, 0x2A)])) =
      some ([.diag (.malformedLength (some 0xFF) 2)], (.normal, 0), ⟨0, 0, 0⟩) := by decide
/-- V-D1, with a stale opcode in cell 0. -/
theorem test_empty_with_stale_opcode :
    shown (stepByte 0xC0 (block .normal 0 [(0, 0xFE)])) =
      some ([.diag (.malformedLength none 0)], (.normal, 0), ⟨0, 0, 0⟩) := by decide
/-- V-D2. -/
theorem test_unknown :
    dispatched tan [0x00, 0x01, 0x02] = some ([.diag (.unknownOpcode 0x00 3)], (.normal, 0), tan) := by decide
/-- V-D3. -/
theorem test_unknown_below_the_lowest :
    dispatched tan [0xFA] = some ([.diag (.unknownOpcode 0xFA 1)], (.normal, 0), tan) := by decide
/-- V-X1. -/
theorem test_soft_reset :
    shown (takeMove .softReset { block .escaped 7 [] with lc := tan }) =
      some ([], (.normal, 0), ⟨0, 0, 0⟩) := by decide
/-- V-X3. -/
theorem test_soft_reset_keeps_color :
    shown (takeMove .softReset { block .normal 3 [] with lc := ⟨1, 2, 3⟩, params := keepColor }) =
      some ([], (.normal, 0), ⟨1, 2, 3⟩) := by decide
/-- V-X4, with `SOFT_RESET_CLEARS_COLOR` = false: hardware reset sets `LC` all the same (R140). -/
theorem test_hard_reset :
    shown (takeMove .hardReset { block .recovering 0 [] with lc := tan, params := keepColor }) =
      some ([], (.normal, 0), ⟨0, 0, 0⟩) := by decide

/-! ### Witnesses: for every statement with hypotheses, values that meet them together

One clause of a statement is one witness, at a boundary of its range where it has one. -/

/-- `s` with the host's moves `moves` pending. -/
def queued (moves : List HostMove) (s : State) : State := { s with pending := moves }

/-- Inputs of a quiet cycle with both sinks ready. -/
def quiet : SignalIn := ⟨false, false, false, 0, true, true⟩

/-- The interface with the event `e`, emitted by a 6-byte frame, offered. -/
def offering (e : Event) : SignalState :=
  ⟨{ block .normal 6 [] with trace := [e] }, .command e, false, none⟩

/-- The interface idle in `(f, n)`. -/
def idleIn (f : FState) (n : Nat) : SignalState := ⟨block f n [], .idle, false, none⟩

/-- A cycle in which the byte source offers `b`. -/
def offered (b : Byte) : SignalIn := { quiet with inValid := true, inData := b }

/-- A cycle in which neither sink is ready. -/
def stalled : SignalIn := { quiet with cmdReady := false, smpReady := false }

theorem witness_hardware_reset : { quiet with rst := true }.rst = true := by decide

theorem witness_step_byte :
    (queued [.byte 0xC0, .softReset] (block .normal 0 [])).pending = .byte 0xC0 :: [.softReset] := by decide
theorem witness_step_softReset :
    (queued [.softReset] (block .escaped 512 [])).pending = .softReset :: [] := by decide
theorem witness_step_hardReset :
    (queued [.hardReset] (block .recovering 0 [])).pending = .hardReset :: [] := by decide
theorem witness_step_idle : (queued [] (block .normal 3 [])).pending = [] := by decide

/-- The last byte that fits: a step from a legal state to a legal state with `WR` = 512. -/
theorem witness_legal_step :
    (queued [.byte 0x11] (block .normal 511 [])).Legal ∧
    step (queued [.byte 0x11] (block .normal 511 [])) = .next (block .normal 512 [(511, 0x11)]) :=
  ⟨⟨by decide, by decide, by decide, fun _ h => nomatch h⟩, rfl⟩

/-- A legal state at the capacity, and one in Recovering. -/
theorem witness_legal_full : (queued [.byte 0xC0] (block .normal 512 [])).Legal :=
  ⟨by decide, by decide, by decide, fun _ h => nomatch h⟩
theorem witness_legal_recovering : (queued [.byte 0xC0] (block .recovering 0 [])).Legal :=
  ⟨by decide, by decide, by decide, fun _ h => nomatch h⟩

theorem witness_byte_without_event :
    stepByte 0xDB (block .normal 3 []) = .next (block .escaped 3 []) := rfl
theorem witness_byte_with_event :
    stepByte 0x00 (block .escaped 3 []) =
      .next { block .recovering 0 [] with trace := [.diag .framingViolation] } := rfl

theorem witness_delimiter_modes :
    (block .normal 512 []).fstate = .normal ∧ (block .normal 512 []).wr ≤ 512 ∧
    (block .recovering 0 []).fstate = .recovering ∧ (block .recovering 0 []).wr ≤ 512 ∧
    (block .escaped 512 []).fstate = .escaped ∧ (block .escaped 512 []).wr ≤ 512 := by decide

theorem witness_delimiter_stream :
    (block .recovering 0 []).fstate ≠ .escaped ∧ (block .recovering 0 []).wr ≤ 512 ∧
    ∀ before after, ([0xFE, 0xDB, 0xDC] : List Byte) = before ++ 0xDB :: after →
      ∃ c rest, after = c :: rest ∧ (c = 0xDC ∨ c = 0xDD) := by
  refine ⟨by decide, by decide, fun before after h => ?_⟩
  rcases before with _ | ⟨_, _ | ⟨_, _ | ⟨_, before⟩⟩⟩ <;> simp_all
  obtain ⟨-, rfl⟩ := h
  exact ⟨_, ⟨_, rfl⟩, .inl rfl⟩

theorem witness_queued_bytes :
    (queued [.byte 0x11, .byte 0xC0] State.reset).pending = ([0x11, 0xC0] : List Byte).map .byte := by decide

theorem witness_parameters_step :
    step (queued [.softReset] (block .escaped 7 [])) = .next (block .normal 0 []) := rfl

theorem witness_wf_symbols :
    (Instr.nData 0xDC).wf .default = true ∧ (Instr.eBad 0xC0).wf .default = true ∧
    (Instr.rSkip 0xDB).wf .default = true := by decide
theorem witness_wf_frames :
    (Instr.rectBad []).wf .default = true ∧ (Instr.textBad []).wf .default = true ∧
    (Instr.waveBad [1, 2]).wf .default = true ∧ (Instr.jpadBad [1]).wf .default = true ∧
    (Instr.wave 1 2 3 []).wf .default = true ∧ (Instr.sys 1 2 3 4 5 []).wf .default = true ∧
    (Instr.sysShort [1, 2, 3, 4]).wf .default = true ∧ (Instr.unknown 0xFA []).wf .default = true := by decide
theorem witness_wf_wave_320 : (Instr.wave 1 2 3 (List.replicate 320 0x99)).wf .default = true := by
  decide +kernel
theorem witness_wf_sys_512 : (Instr.sys 1 2 3 4 5 (List.replicate 506 0x11)).wf .default = true := by
  decide +kernel
theorem witness_wf_waveBad_325 : (Instr.waveBad (List.replicate 324 0x99)).wf .default = true := by
  decide +kernel

theorem witness_decodes : decode baseSix (.frame [0xFE, 1, 0, 2, 0, 9, 7, 8, 6]) =
    .ok (.rect9 1 2 7 8 6 9) := by decide

theorem witness_frame_512 : (List.replicate 512 (0x11 : Byte)).length ≤ 512 := by decide +kernel
theorem witness_frame_513 : 512 < (List.replicate 513 (0x11 : Byte)).length := by decide +kernel

theorem witness_stuff_ordinary : (0xDC : Byte) ≠ 0xC0 ∧ (0xDC : Byte) ≠ 0xDB := by decide
theorem witness_stuff_escape : stuff [0xFE, 0xDB] = [0xFE] ++ 0xDB :: [0xDD] := by decide

theorem witness_destuffing :
    (List.replicate 512 (0xC0 : Byte)).length ≤ 512 ∧ State.reset.fstate = .normal ∧ State.reset.wr = 0 := by
  decide +kernel

/-- `RECT12 ...; RECT5 1, 2` of S3, from reset. -/
theorem witness_streams :
    (∀ p ∈ ([[0xFE, 5, 0, 6, 0, 7, 0, 8, 0, 10, 20, 30], [0xFE, 1, 0, 2, 0]] : List (List Byte)),
      p.length ≤ 512) ∧ State.reset.fstate = .normal ∧ State.reset.wr = 0 := by decide

theorem witness_nEnd : (block .normal 512 []).wr ≤ 512 := by decide
theorem witness_nEnd_stops : 512 < (block .normal 513 []).wr := by decide

theorem witness_append_fits :
    (0xDC : Byte) ≠ 0xC0 ∧ (0xDC : Byte) ≠ 0xDB ∧ (block .normal 511 []).wr < 512 := by decide
theorem witness_append_overruns : 512 ≤ (block .escaped 512 []).wr := by decide

theorem witness_bad_escape : (0xC0 : Byte) ≠ 0xDC ∧ (0xC0 : Byte) ≠ 0xDD := by decide

theorem witness_escaped_full :
    (block .escaped 512 []).fstate = .escaped ∧ (block .escaped 512 []).wr = 512 := by decide

theorem witness_skip : (0xDB : Byte) ≠ 0xC0 := by decide

theorem witness_recovery :
    (block .recovering 0 []).fstate = .recovering ∧ (0xC0 : Byte) ∉ ([0xDB, 0xDC, 0x00] : List Byte) := by
  decide

theorem witness_recovered :
    (block .recovering 0 []).fstate = .recovering ∧
    (block .recovering 0 []).lc = (block .recovering 0 []).params.lastColorReset := by decide

theorem witness_rect12 :
    (block .normal 12 [(0, 0xFE)]).wr = 12 ∧ memRead1 (block .normal 12 [(0, 0xFE)]) 0 = 0xFE := by decide
theorem witness_rect9 :
    (block .normal 9 [(0, 0xFE)]).wr = 9 ∧ memRead1 (block .normal 9 [(0, 0xFE)]) 0 = 0xFE := by decide
theorem witness_rect5 :
    (block .normal 5 [(0, 0xFE)]).wr = 5 ∧ memRead1 (block .normal 5 [(0, 0xFE)]) 0 = 0xFE := by decide
theorem witness_text12 :
    (block .normal 12 [(0, 0xFD)]).wr = 12 ∧ memRead1 (block .normal 12 [(0, 0xFD)]) 0 = 0xFD := by decide
theorem witness_wave_4 :
    4 ≤ (block .normal 4 [(0, 0xFC)]).wr ∧ (block .normal 4 [(0, 0xFC)]).wr ≤ 324 ∧
    memRead1 (block .normal 4 [(0, 0xFC)]) 0 = 0xFC := by decide
theorem witness_wave_324 :
    4 ≤ (block .normal 324 [(0, 0xFC)]).wr ∧ (block .normal 324 [(0, 0xFC)]).wr ≤ 324 ∧
    memRead1 (block .normal 324 [(0, 0xFC)]) 0 = 0xFC := by decide
theorem witness_jpad3 :
    (block .normal 3 [(0, 0xFB)]).wr = 3 ∧ memRead1 (block .normal 3 [(0, 0xFB)]) 0 = 0xFB := by decide
theorem witness_sys_6 :
    max 6 (block .normal 6 [(0, 0xFF)]).params.sysMinLen ≤ (block .normal 6 [(0, 0xFF)]).wr ∧
    memRead1 (block .normal 6 [(0, 0xFF)]) 0 = 0xFF := by decide
theorem witness_sys_512 :
    max 6 (block .normal 512 [(0, 0xFF)]).params.sysMinLen ≤ (block .normal 512 [(0, 0xFF)]).wr ∧
    memRead1 (block .normal 512 [(0, 0xFF)]) 0 = 0xFF := by decide
theorem witness_empty : (block .normal 0 [(0, 0xFE)]).wr = 0 := by decide
theorem witness_unknown_1 :
    1 ≤ (block .normal 1 [(0, 0xFA)]).wr ∧
    memRead1 (block .normal 1 [(0, 0xFA)]) 0 ∉ ([0xFB, 0xFC, 0xFD, 0xFE, 0xFF] : List Byte) := by decide
theorem witness_unknown_512 :
    1 ≤ (block .normal 512 []).wr ∧
    memRead1 (block .normal 512 []) 0 ∉ ([0xFB, 0xFC, 0xFD, 0xFE, 0xFF] : List Byte) := by decide

/-- The lengths next to the accepted ones, and the least and the greatest. -/
theorem witness_rectBad :
    ∀ n ∈ [1, 4, 6, 8, 10, 11, 13, 512], 1 ≤ (block .normal n [(0, 0xFE)]).wr ∧
      memRead1 (block .normal n [(0, 0xFE)]) 0 = 0xFE ∧ n ≠ 5 ∧ n ≠ 9 ∧ n ≠ 12 := by decide
theorem witness_textBad :
    ∀ n ∈ [1, 11, 13, 512], 1 ≤ (block .normal n [(0, 0xFD)]).wr ∧
      memRead1 (block .normal n [(0, 0xFD)]) 0 = 0xFD ∧ n ≠ 12 := by decide
theorem witness_waveBad :
    ∀ n ∈ [1, 3, 325, 512], 1 ≤ (block .normal n [(0, 0xFC)]).wr ∧
      memRead1 (block .normal n [(0, 0xFC)]) 0 = 0xFC ∧ (n < 4 ∨ 324 < n) := by decide
theorem witness_jpadBad :
    ∀ n ∈ [1, 2, 4, 512], 1 ≤ (block .normal n [(0, 0xFB)]).wr ∧
      memRead1 (block .normal n [(0, 0xFB)]) 0 = 0xFB ∧ n ≠ 3 := by decide
theorem witness_sysShort :
    ∀ n ∈ [1, 5], 1 ≤ (block .normal n [(0, 0xFF)]).wr ∧
      memRead1 (block .normal n [(0, 0xFF)]) 0 = 0xFF ∧
      n < max 6 (block .normal n [(0, 0xFF)]).params.sysMinLen := by decide

/-- A frame that emits nothing, and one that emits an event. -/
theorem witness_frame_events :
    (block .normal 3 [(0, 0xFB)]).wr ≤ 512 ∧
    ((block .normal 3 [(0, 0xFB)]).wr = 3 ∧ memRead1 (block .normal 3 [(0, 0xFB)]) 0 = 0xFB) ∧
    (block .normal 512 []).wr ≤ 512 ∧
    ¬ ((block .normal 512 []).wr = 3 ∧ memRead1 (block .normal 512 []) 0 = 0xFB) := by decide

/-- Two blocks with the same frame and colour, and different traces, modes and stale cells. -/
theorem witness_decoder_inputs :
    (block .normal 1 [(0, 0xFE), (1, 0x05)]).wr ≤ 512 ∧
    (block .normal 1 [(0, 0xFE), (1, 0x05)]).wr = (block .escaped 1 [(0, 0xFE), (7, 0x09)]).wr ∧
    (∀ a, a < (block .normal 1 [(0, 0xFE), (1, 0x05)]).wr →
      memRead1 (block .normal 1 [(0, 0xFE), (1, 0x05)]) a =
        memRead1 (block .escaped 1 [(0, 0xFE), (7, 0x09)]) a) ∧
    (block .normal 1 [(0, 0xFE), (1, 0x05)]).lc = (block .escaped 1 [(0, 0xFE), (7, 0x09)]).lc ∧
    (block .normal 1 [(0, 0xFE), (1, 0x05)]).params = (block .escaped 1 [(0, 0xFE), (7, 0x09)]).params := by
  decide

/-- A step that changes Last Color (V-R4), and one that goes on and leaves it. -/
theorem witness_color_written :
    ∃ t, stepByte 0xC0 (framed tan [0xFE, 0x34, 0x12, 0xFF, 0xFF, 0xAA, 0xBB, 0xCC, 0x77]) = .next t ∧
      t.lc = ⟨170, 187, 204⟩ := ⟨_, rfl, by decide⟩
theorem witness_color_kept : ∃ t, stepByte 0xC0 (block .escaped 2 []) = .next t := ⟨_, rfl⟩

/-- Two blocks that differ in the stale cell 0 alone. -/
theorem witness_stale :
    SameButStale (block .normal 0 [(0, 0xFE)]) (block .normal 0 [(0, 0xFF), (9, 0x01)]) ∧
    (block .normal 0 [(0, 0xFE)]).wr ≤ 512 :=
  ⟨⟨rfl, rfl, fun _ h => absurd h (Nat.not_lt_zero _), rfl, rfl, rfl, rfl⟩, by decide⟩

/-- One cycle of each kind: reset, soft reset, a byte taken, nothing. -/
theorem witness_cycle_reset :
    { quiet with rst := true }.rst = true ∧
    cycle { quiet with rst := true } (offering (.font 5)) = .next SignalState.reset := ⟨rfl, rfl⟩
theorem witness_cycle_soft_reset :
    ((idleIn .escaped 7).delivery = .idle ∧ ({ quiet with softReset := true }.softReset = true)) ∧
    cycle { quiet with softReset := true } (idleIn .escaped 7) = .next SignalState.reset := ⟨by decide, rfl⟩
theorem witness_cycle_held_reset :
    cycle quiet { idleIn .escaped 7 with held := true } = .next SignalState.reset := rfl
theorem witness_cycle_byte :
    ((offered 0xDB).inValid = true ∧ (outputs (offered 0xDB) (idleIn .normal 2)).inReady = true) ∧
    cycle (offered 0xDB) (idleIn .normal 2) = .next (idleIn .escaped 2) := ⟨by decide, rfl⟩
theorem witness_cycle_stalled :
    (outputs { stalled with inValid := true } (offering (.font 5))).inReady = false ∧
    cycle { stalled with inValid := true } (offering (.font 5)) = .next (offering (.font 5)) := ⟨by decide, rfl⟩

/-- A consistent interface with a command offered, one with a beat offered, one with a report. -/
theorem witness_consistent :
    (offering (.font 5)).Consistent ∧
    cycle quiet (offering (.font 5)) =
      .next ⟨{ State.reset with trace := [.font 5] }, .idle, false, none⟩ :=
  ⟨⟨fun _ => rfl, fun _ h => by cases h; exact ⟨rfl, fun _ h => nomatch h⟩, fun _ _ h => (nomatch h),
    fun _ h => (nomatch h), fun h => nomatch h⟩, rfl⟩
theorem witness_consistent_samples :
    (⟨{ block .normal 6 [] with trace := [.wave 1 2 3 [7, 8]] }, .samples 8 [], false, none⟩ :
      SignalState).Consistent :=
  ⟨fun _ => rfl, fun _ h => (nomatch h), fun _ _ h => by cases h; exact ⟨1, 2, 3, [7], rfl⟩,
    fun _ h => (nomatch h), fun h => nomatch h⟩
theorem witness_consistent_report :
    (⟨{ block .normal 6 [] with trace := [.diag (.unknownOpcode 0x42 6)] }, .report, false,
      some (.unknownOpcode 0x42 6)⟩ : SignalState).Consistent :=
  ⟨fun _ => rfl, fun _ h => (nomatch h), fun _ _ h => (nomatch h), fun _ h => by cases h; rfl,
    fun _ => ⟨_, rfl, .inr ⟨_, _, rfl⟩⟩⟩

theorem witness_delivering :
    quiet.rst = false ∧ (offering (.wave 1 2 3 [7])).delivery = .command (.wave 1 2 3 [7]) ∧
    (offering (.wave 1 2 3 [])).delivery = .command (.wave 1 2 3 []) ∧
    (⟨block .normal 5 [], .samples 7 [], false, none⟩ : SignalState).delivery = .samples 7 [] ∧
    (⟨block .normal 6 [], .samples 7 [8], false, none⟩ : SignalState).delivery = .samples 7 [8] ∧
    (⟨block .normal 5 [], .report, false, none⟩ : SignalState).delivery = .report ∧
    quiet.cmdReady = true ∧ quiet.smpReady = true := by decide
theorem witness_sink_not_ready :
    stalled.rst = false ∧ stalled.cmdReady = false ∧ stalled.smpReady = false ∧
    (offering (.font 5)).delivery = .command (.font 5) := by decide
theorem witness_no_wave : ∀ p1 p2 p3 samples, Event.font 5 ≠ .wave p1 p2 p3 samples :=
  fun _ _ _ _ h => nomatch h

/-- A sink that stalls twice still takes both beats, in order. -/
theorem witness_wave_stalls :
    (∀ i ∈ [stalled, quiet, stalled, quiet, quiet], i.rst = false) ∧
    (next? (runCycles [stalled, quiet, stalled, quiet, quiet] (offering (.wave 1 2 3 [7, 8])))).map
      (fun r => (r.1.delivery, r.2)) = some (.idle, [7, 8]) := by decide
theorem witness_wave_beats :
    (offering (.wave 1 2 3 [7, 8])).delivery = .command (.wave 1 2 3 [7, 8]) ∧
    [quiet, quiet, quiet].length = ([7, 8] : List Byte).length + 1 ∧
    ∀ i ∈ [quiet, quiet, quiet], i.rst = false ∧ i.cmdReady = true ∧ i.smpReady = true := by decide

theorem witness_ports :
    quiet.rst = false ∧
    (offering (.rect 1 2 3 4 5 6 7)).delivery = .command (.rect 1 2 3 4 5 6 7) ∧
    (offering (.text 1 2 3 4 5 6)).delivery = .command (.text 1 2 3 4 5 6) ∧
    (offering (.wave 1 2 3 [])).delivery = .command (.wave 1 2 3 []) ∧
    (offering (.font 5)).delivery = .command (.font 5) ∧
    (⟨block .normal 5 [], .samples 7 [], false, none⟩ : SignalState).delivery = .samples 7 [] := by decide
theorem witness_ports_diagnostics :
    ∀ d ∈ [Diag.malformedLength none 0, .malformedLength (some 0xFE) 512, .unknownOpcode 0xFA 1,
      .framingViolation, .overrun, .recovered],
      (⟨block .normal 0 [], .report, false, some d⟩ : SignalState).report = some d := by decide
theorem witness_ports_quiet :
    (∀ e, (idleIn .normal 3).delivery ≠ .command e) ∧
    (∀ v rest, (idleIn .normal 3).delivery ≠ .samples v rest) ∧ (idleIn .normal 3).report = none :=
  ⟨fun _ h => (nomatch h), fun _ _ h => (nomatch h), rfl⟩

/-- R122: code 0 where nothing is reported. -/
theorem test_cause_code_none : (outputs quiet (idleIn .normal 3)).diagCause = 0 := by decide
/-- R122: code 3 with the opcode and the length. -/
theorem test_cause_code_unknown :
    (fun o => (o.diagValid, o.diagCause, o.diagOpv, o.diagOp, o.diagLen))
      (outputs quiet ⟨block .normal 6 [], .report, false, some (.unknownOpcode 0x42 6)⟩) =
      (true, 3, true, some 0x42, some 6) := by decide

/-- A byte taken that emits nothing, a sink event, the report of a frame, and another report. -/
theorem witness_taken_silent :
    (outputs (offered 0xDB) (idleIn .normal 2)).inReady = true ∧ (offered 0xDB).inValid = true ∧
    stepByte 0xDB (idleIn .normal 2).core = .next (block .escaped 2 []) := ⟨by decide, by decide, rfl⟩
theorem witness_taken_event :
    ∃ t, stepByte 0xC0 (block .normal 4 [(0, 0xFC)]) = .next t ∧
      t.trace = (block .normal 4 [(0, 0xFC)]).trace ++ [.wave 0 0 0 []] := ⟨_, rfl, by decide⟩
theorem witness_taken_report :
    ∃ t, stepByte 0xC0 (idleIn .normal 0).core = .next t ∧
      t.trace = (idleIn .normal 0).core.trace ++ [.diag (.malformedLength none 0)] := ⟨_, rfl, by decide⟩
theorem witness_taken_violation :
    ∃ t, stepByte 0xC0 (idleIn .escaped 2).core = .next t ∧
      t.trace = (idleIn .escaped 2).core.trace ++ [.diag .framingViolation] := ⟨_, rfl, by decide⟩
theorem witness_not_taken :
    ¬ (quiet.inValid = true ∧ (outputs quiet (idleIn .normal 2)).inReady = true) ∧
    cycle quiet (idleIn .normal 2) = .next (idleIn .normal 2) := ⟨by decide, rfl⟩

theorem witness_in_ready :
    quiet.rst = false ∧ quiet.softReset = false ∧ (idleIn .normal 512).held = false ∧
    (idleIn .normal 512).delivery = .idle := by decide

theorem witness_legal_core : (idleIn .normal 512).core.Legal :=
  ⟨by decide, by decide, by decide, fun _ h => nomatch h⟩

end Sys2Proof.Tests
end

section
/-! SUPPORT. What a frame command and a byte do, each said once: the state after a frame command, the
relation `ByteStep` between the states around a byte, and the event of the step. -/

namespace Sys2Proof

/-- The event a frame command emits when Last Color holds `c` (rules R20, R21, R81 to R111). -/
def Instr.event (c : Color) : Instr → Option Machine.Event
  | .rect12 x y w h r g b => some (.rect x y w h r g b)
  | .rect9 x y r g b _ => some (.rect x y Machine.unitSize Machine.unitSize r g b)
  | .rect5 x y => some (.rect x y Machine.unitSize Machine.unitSize c.r c.g c.b)
  | .rectBad rest => some (.diag (.malformedLength (some opRectangle) (1 + rest.length)))
  | .text12 ch x y r g b _ _ _ => some (.text ch x y r g b)
  | .textBad rest => some (.diag (.malformedLength (some opText) (1 + rest.length)))
  | .wave p1 p2 p3 samples => some (.wave p1 p2 p3 samples)
  | .waveBad rest => some (.diag (.malformedLength (some opWaveform) (1 + rest.length)))
  | .jpadBad rest => some (.diag (.malformedLength (some opJoypad) (1 + rest.length)))
  | .sys _ _ _ _ f _ => some (.font f)
  | .sysShort rest => some (.diag (.malformedLength (some opSystem) (1 + rest.length)))
  | .empty => some (.diag (.malformedLength none 0))
  | .unknown op rest => some (.diag (.unknownOpcode op (1 + rest.length)))
  | .jpad3 _ _ => none
  | .nEnd => none
  | .nEsc => none
  | .nData _ => none
  | .eDelim => none
  | .eEsc => none
  | .eBad _ => none
  | .rEnd => none
  | .rSkip _ => none

/-! ### Decoding gives well-formed commands -/

theorem decodeRect_wf (cfg : Config) {rest : List Byte} (h : fits rest) :
    (decodeRect cfg rest).wf cfg = true := by
  unfold decodeRect
  split
  · rfl
  · split <;> rfl
  · rfl
  · next h11 h8 h4 =>
    refine decide_eq_true ⟨h, fun hl => ?_, fun hl => ?_, fun hl => ?_⟩
    · match rest, (by omega : rest.length = 4) with
      | [_, _, _, _], _ => exact h4 _ _ _ _ rfl
    · match rest, (by omega : rest.length = 8) with
      | [_, _, _, _, _, _, _, _], _ => exact h8 _ _ _ _ _ _ _ _ rfl
    · match rest, (by omega : rest.length = 11) with
      | [_, _, _, _, _, _, _, _, _, _, _], _ => exact h11 _ _ _ _ _ _ _ _ _ _ _ rfl

theorem decodeText_wf (cfg : Config) {rest : List Byte} (h : fits rest) :
    (decodeText rest).wf cfg = true := by
  unfold decodeText
  split
  · rfl
  · next h11 =>
    refine decide_eq_true ⟨h, fun hl => ?_⟩
    match rest, (by omega : rest.length = 11) with
    | [_, _, _, _, _, _, _, _, _, _, _], _ => exact h11 _ _ _ _ _ _ _ _ _ _ _ rfl

theorem decodeWave_wf (cfg : Config) {rest : List Byte} (h : fits rest) :
    (decodeWave rest).wf cfg = true := by
  unfold decodeWave
  split
  · next samples =>
    split
    · next hs => exact decide_eq_true hs
    · next hs =>
      refine decide_eq_true ⟨h, .inr ?_⟩
      simp only [List.length_cons]
      omega
  · next h3 =>
    refine decide_eq_true ⟨h, .inl ?_⟩
    match rest with
    | [] => decide
    | [_] => simp
    | [_, _] => simp
    | _ :: _ :: _ :: _ => exact absurd rfl (h3 _ _ _ _)

theorem decodeJpad_wf (cfg : Config) {rest : List Byte} (h : fits rest) :
    (decodeJpad rest).wf cfg = true := by
  unfold decodeJpad
  split
  · rfl
  · next h2 =>
    refine decide_eq_true ⟨h, fun hl => ?_⟩
    match rest, (by omega : rest.length = 2) with
    | [_, _], _ => exact h2 _ _ rfl

theorem decodeSys_wf (cfg : Config) {rest : List Byte} (h : fits rest) :
    (decodeSys cfg rest).wf cfg = true := by
  have six_le : 6 ≤ cfg.sysLen := Nat.le_max_left ..
  unfold decodeSys
  split
  · next tail =>
    simp only [fits, List.length_cons] at h
    split
    · next hs => exact decide_eq_true ⟨by omega, hs⟩
    · next hs =>
      refine decide_eq_true ⟨?_, ?_⟩ <;> simp only [fits, List.length_cons] <;> omega
  · next h5 =>
    refine decide_eq_true ⟨h, ?_⟩
    have short : rest.length < 5 := by
      match rest with
      | [] => simp
      | [_] => simp
      | [_, _] => simp
      | [_, _, _] => simp
      | [_, _, _, _] => simp
      | _ :: _ :: _ :: _ :: _ :: _ => exact absurd rfl (h5 _ _ _ _ _ _)
    omega

/-- A frame that fits the buffer decodes to a well-formed command (rules R49 to R51). -/
theorem decodeFrame_wf (cfg : Config) {p : List Byte} (h : p.length ≤ cap) :
    (decodeFrame cfg p).wf cfg = true := by
  cases p with
  | nil => rfl
  | cons op rest =>
    have hfits : fits rest := by rw [List.length_cons] at h; unfold fits; omega
    simp only [decodeFrame]
    split_ifs with hr ht hw hj hs
    · exact decodeRect_wf cfg hfits
    · exact decodeText_wf cfg hfits
    · exact decodeWave_wf cfg hfits
    · exact decodeJpad_wf cfg hfits
    · exact decodeSys_wf cfg hfits
    · exact decide_eq_true ⟨hfits, by simp [hr, ht, hw, hj, hs]⟩

end Sys2Proof

namespace Sys2Proof.Machine

/-! ### Frame commands -/

/-- The diagnostic of a rejected frame that is not empty (rules R21, R49). -/
theorem malformedLength_legal {rest : List Byte} (op : Byte) (h : fits rest) :
    (Event.diag (.malformedLength (some op) (1 + rest.length))).Legal :=
  ⟨h, by simp⟩

/-- A well-formed command emits an event within its ranges (rules R20, R21, R49). -/
theorem event_legal {cfg : Config} {i : Instr} (hwf : i.wf cfg = true) {c : Color} {e : Event}
    (he : i.event c = some e) : e.Legal := by
  cases i <;> simp only [Instr.event, Option.some.injEq, reduceCtorEq] at he <;> subst he
  case rectBad rest => exact malformedLength_legal _ (of_decide_eq_true hwf).1
  case textBad rest => exact malformedLength_legal _ (of_decide_eq_true hwf).1
  case waveBad rest => exact malformedLength_legal _ (of_decide_eq_true hwf).1
  case jpadBad rest => exact malformedLength_legal _ (of_decide_eq_true hwf).1
  case sysShort rest => exact malformedLength_legal _ (of_decide_eq_true hwf).1
  case wave p1 p2 p3 samples =>
    have hs : samples.length ≤ waveMax := of_decide_eq_true hwf
    exact hs
  case empty => exact ⟨Nat.zero_le _, by simp⟩
  case unknown op rest =>
    obtain ⟨hfits, hop⟩ := of_decide_eq_true hwf
    exact ⟨Nat.le_add_right .., hfits, hop⟩
  all_goals trivial

/-- A diagnostic that a frame command emits has a cause only a frame has. -/
theorem event_diag_ofFrame {i : Instr} {c : Color} {d : Diag} (h : i.event c = some (.diag d)) :
    d.OfFrame := by
  cases i <;> simp only [Instr.event, Option.some.injEq, Event.diag.injEq, reduceCtorEq] at h <;>
    subst h
  case unknown op rest => exact .inr ⟨_, _, rfl⟩
  all_goals exact .inl ⟨_, _, rfl⟩

/-- The state after a frame command: only Last Color and the trace may differ (rules R84, R86). -/
def State.afterFrame (s : State) (i : Instr) : State :=
  { s with lc := i.setsColor.getD s.lc, trace := s.trace ++ (i.event s.lc).toList }

section
variable (s : State) (i : Instr)

@[simp] theorem State.afterFrame_fstate : (s.afterFrame i).fstate = s.fstate := rfl
@[simp] theorem State.afterFrame_wr : (s.afterFrame i).wr = s.wr := rfl
@[simp] theorem State.afterFrame_buf : (s.afterFrame i).buf = s.buf := rfl
@[simp] theorem State.afterFrame_lc : (s.afterFrame i).lc = i.setsColor.getD s.lc := rfl
@[simp] theorem State.afterFrame_trace :
    (s.afterFrame i).trace = s.trace ++ (i.event s.lc).toList := rfl
@[simp] theorem State.afterFrame_params : (s.afterFrame i).params = s.params := rfl
@[simp] theorem State.afterFrame_pending : (s.afterFrame i).pending = s.pending := rfl

end

theorem exec_frame {i : Instr} (hf : i.isFrame = true) (s : State) :
    exec i s = .next (s.afterFrame i) := by
  cases i
  case jpad3 j0 j1 => simp [exec, execJpad3, State.afterFrame, Instr.event, Instr.setsColor]
  case nEnd => cases hf
  case nEsc => cases hf
  case nData => cases hf
  case eDelim => cases hf
  case eEsc => cases hf
  case eBad => cases hf
  case rEnd => cases hf
  case rSkip => cases hf
  all_goals rfl

/-- The command the frame in the buffer decodes to. -/
def State.command (s : State) : Instr := decodeFrame s.params s.frame

theorem State.command_wf {s : State} (h : s.wr ≤ cap) : s.command.wf s.params = true :=
  decodeFrame_wf s.params (by simpa using h)

/-- The state after `N.END`: the frame is run, then cleared (rule R61). -/
def State.dispatch (s : State) : State := ((s.afterFrame s.command).clear).setFstate .normal

section
variable (s : State)

@[simp] theorem State.dispatch_fstate : s.dispatch.fstate = .normal := rfl
@[simp] theorem State.dispatch_wr : s.dispatch.wr = 0 := rfl
@[simp] theorem State.dispatch_buf : s.dispatch.buf = s.buf := rfl
@[simp] theorem State.dispatch_lc : s.dispatch.lc = s.command.setsColor.getD s.lc := rfl
@[simp] theorem State.dispatch_trace :
    s.dispatch.trace = s.trace ++ (s.command.event s.lc).toList := rfl
@[simp] theorem State.dispatch_params : s.dispatch.params = s.params := rfl
@[simp] theorem State.dispatch_pending : s.dispatch.pending = s.pending := rfl

end

theorem execNEnd_of_le {s : State} (h : s.wr ≤ cap) : execNEnd s = .next s.dispatch := by
  unfold execNEnd
  rw [runDecoder_eq_exec h, exec_frame (decodeFrame_isFrame _ _)]
  rfl

theorem execNEnd_of_lt {s : State} (h : cap < s.wr) : execNEnd s = .fault (.absentCell cap) := by
  unfold execNEnd
  rw [runDecoder_absent h]
  rfl

/-! ### One byte -/

/-- The state after the step of the byte `b` in `s`: one constructor per thing a byte can do. -/
inductive ByteStep (b : Byte) (s : State) : State → Prop where
  /-- `N.END` (R61): the frame in the buffer is dispatched. -/
  | dispatch (hd : dispatches s.fstate b = true) (hw : s.wr ≤ cap) : ByteStep b s s.dispatch
  /-- `N.ESC` (R62). -/
  | escape (hf : s.fstate = .normal) (hd : dispatches s.fstate b = false) :
      ByteStep b s (s.setFstate .escaped)
  /-- `N.DATA`, `E.DELIM` and `E.ESC` with room in the buffer (R63 to R65, R71). -/
  | store (v : Byte) (hf : s.fstate ≠ .recovering) (hd : dispatches s.fstate b = false)
      (hw : s.wr < cap) : ByteStep b s (((s.store s.wr v).setWr (s.wr + 1)).setFstate .normal)
  /-- The same three with the buffer full (R71). -/
  | overrun (hf : s.fstate ≠ .recovering) (hd : dispatches s.fstate b = false)
      (hw : ¬ s.wr < cap) : ByteStep b s (raise .overrun s)
  /-- `E.BAD` (R66). -/
  | violation (hf : s.fstate = .escaped) (hd : dispatches s.fstate b = false) :
      ByteStep b s (raise .framingViolation s)
  /-- `R.END` (R67). -/
  | recovery (hf : s.fstate = .recovering) (hd : dispatches s.fstate b = false) :
      ByteStep b s (recover s)
  /-- `R.SKIP` (R68). -/
  | skip (hf : s.fstate = .recovering) (hd : dispatches s.fstate b = false) : ByteStep b s s

theorem dispatches_iff {f : FState} {b : Byte} :
    dispatches f b = true ↔ f = .normal ∧ b = 0xC0 := decide_eq_true_iff

theorem ByteStep.append {b : Byte} {s : State} (v : Byte) (hf : s.fstate ≠ .recovering)
    (hd : dispatches s.fstate b = false) : ByteStep b s (append v s) := by
  by_cases hw : s.wr < cap
  · rw [append_of_lt v hw]; exact .store v hf hd hw
  · rw [append_of_full v hw]; exact .overrun hf hd hw

/-- A byte stops the machine only as a delimiter in Normal above a full buffer, and otherwise does one
of the things `ByteStep` lists. -/
theorem stepByte_outcome (b : Byte) (s : State) :
    (∃ t, stepByte b s = .next t ∧ ByteStep b s t) ∨
      (stepByte b s = .fault (.absentCell cap) ∧ cap < s.wr) := by
  rcases stepByte_cases b s with ⟨hf, hb, h⟩ | ⟨hf, hb, h⟩ | ⟨hf, hb, -, h⟩ | ⟨hf, -, h⟩ | ⟨hf, -, h⟩ |
    ⟨hf, -, -, h⟩ | ⟨hf, -, h⟩ | ⟨hf, -, h⟩
  · rcases Nat.lt_or_ge cap s.wr with hw | hw
    · exact .inr ⟨h.trans (execNEnd_of_lt hw), hw⟩
    · exact .inl ⟨_, h.trans (execNEnd_of_le hw), .dispatch (decide_eq_true ⟨hf, hb⟩) hw⟩
  · exact .inl ⟨_, h, .escape hf (by rw [hb]; simp [dispatches, delim, esc])⟩
  · exact .inl ⟨_, h, .append b (by simp [hf]) (by simp [dispatches, hb])⟩
  · exact .inl ⟨_, h, .append delim (by simp [hf]) (by simp [dispatches, hf])⟩
  · exact .inl ⟨_, h, .append esc (by simp [hf]) (by simp [dispatches, hf])⟩
  · exact .inl ⟨_, h, .violation hf (by simp [dispatches, hf])⟩
  · exact .inl ⟨_, h, .recovery hf (by simp [dispatches, hf])⟩
  · exact .inl ⟨_, h, .skip hf (by simp [dispatches, hf])⟩

theorem byteStep_of_next {b : Byte} {s t : State} (h : stepByte b s = .next t) : ByteStep b s t := by
  rcases stepByte_outcome b s with ⟨u, hu, hstep⟩ | ⟨hfault, -⟩
  · cases hu.symm.trans h
    exact hstep
  · cases hfault.symm.trans h

/-- A byte goes on wherever `WR` is at most the capacity (rule R120). -/
theorem stepByte_goesOn (b : Byte) {s : State} (h : s.wr ≤ cap) :
    ∃ t, stepByte b s = .next t ∧ ByteStep b s t := by
  rcases stepByte_outcome b s with hnext | ⟨-, hw⟩
  · exact hnext
  · exact absurd h (Nat.not_le_of_lt hw)

/-! ### What every byte keeps -/

theorem ByteStep.params_eq {b : Byte} {s t : State} (h : ByteStep b s t) : t.params = s.params := by
  cases h <;> simp [recover]

theorem ByteStep.lc_eq {b : Byte} {s t : State} (h : ByteStep b s t) :
    t.lc = if dispatches s.fstate b = true then s.command.setsColor.getD s.lc else s.lc := by
  cases h with
  | dispatch hd hw => rw [if_pos hd]; rfl
  | escape hf hd => simp [hd]
  | store v hf hd hw => simp [hd]
  | overrun hf hd hw => simp [hd]
  | violation hf hd => simp [hd]
  | recovery hf hd => simp [hd, recover]
  | skip hf hd => simp [hd]

theorem ByteStep.wr_le {b : Byte} {s t : State} (h : ByteStep b s t) (hs : s.wr ≤ cap) :
    t.wr ≤ cap := by
  cases h with
  | dispatch => exact Nat.zero_le _
  | escape => exact hs
  | store v hf hd hw => exact hw
  | overrun => exact Nat.zero_le _
  | violation => exact Nat.zero_le _
  | recovery => exact Nat.zero_le _
  | skip => exact hs

/-- What the step of the byte `b` from `s` to `t` emits (rule R75): nothing; the command or the
diagnostic of a dispatched frame, with `(Normal, 0)` afterwards; or another diagnostic. -/
inductive ByteEmits (b : Byte) (s t : State) : Prop where
  | silent (ht : t.trace = s.trace)
  | command (e : Event) (ht : t.trace = s.trace ++ [e]) (he : ∀ d, e ≠ .diag d)
      (hd : dispatches s.fstate b = true) (hf : t.fstate = .normal) (hw : t.wr = 0)
  | dropped (d : Diag) (ht : t.trace = s.trace ++ [.diag d]) (hframe : d.OfFrame)
      (hd : dispatches s.fstate b = true) (hf : t.fstate = .normal) (hw : t.wr = 0)
  | notice (d : Diag) (ht : t.trace = s.trace ++ [.diag d]) (hd : dispatches s.fstate b = false)

theorem ByteStep.emits {b : Byte} {s t : State} (h : ByteStep b s t) : ByteEmits b s t := by
  cases h with
  | dispatch hd hw =>
    cases he : s.command.event s.lc with
    | none => exact .silent (by simp [he])
    | some e =>
      have ht : s.dispatch.trace = s.trace ++ [e] := by simp [he]
      by_cases hdiag : ∃ d, e = .diag d
      · obtain ⟨d, rfl⟩ := hdiag
        exact .dropped d ht (event_diag_ofFrame he) hd rfl rfl
      · exact .command e ht (fun d hed => hdiag ⟨d, hed⟩) hd rfl rfl
  | escape => exact .silent rfl
  | store => exact .silent rfl
  | overrun hf hd hw => exact .notice _ (raise_trace _ _) hd
  | violation hf hd => exact .notice _ (raise_trace _ _) hd
  | recovery hf hd => exact .notice _ (raise_trace _ _) hd
  | skip => exact .silent rfl

/-! ### One step -/

theorem step_of_pending_nil {s : State} (h : s.pending = []) : step s = .next s := by
  simp [step, takePending, h]

theorem step_of_pending_cons {s : State} {m : HostMove} {moves : List HostMove}
    (h : s.pending = m :: moves) : step s = takeMove m (s.setPending moves) := by
  simp [step, takePending, h]

/-- What a move can do: the step of its byte, or a reset. -/
theorem takeMove_cases {m : HostMove} {s t : State} (h : takeMove m s = .next t) :
    (∃ b, m = .byte b ∧ ByteStep b s t) ∨ (m = .softReset ∧ t = softReset s) ∨
      (m = .hardReset ∧ t = hardReset s) := by
  cases m with
  | byte b => exact .inl ⟨b, rfl, byteStep_of_next h⟩
  | softReset => cases h; exact .inr (.inl ⟨rfl, rfl⟩)
  | hardReset => cases h; exact .inr (.inr ⟨rfl, rfl⟩)

/-- A step does nothing where nothing is pending, and takes the next move otherwise (rule R78). -/
theorem step_cases {s t : State} (h : step s = .next t) :
    t = s ∨ ∃ m moves, s.pending = m :: moves ∧ takeMove m (s.setPending moves) = .next t := by
  cases hp : s.pending with
  | nil =>
    rw [step_of_pending_nil hp] at h
    cases h
    exact .inl rfl
  | cons m moves =>
    rw [step_of_pending_cons hp] at h
    exact .inr ⟨m, moves, rfl, h⟩

@[simp] theorem softReset_params (s : State) : (softReset s).params = s.params := by
  unfold softReset; split <;> rfl

@[simp] theorem softReset_fstate (s : State) : (softReset s).fstate = .normal := by
  unfold softReset; split <;> rfl

@[simp] theorem softReset_wr (s : State) : (softReset s).wr = 0 := by
  unfold softReset; split <;> rfl

@[simp] theorem softReset_buf (s : State) : (softReset s).buf = s.buf := by
  unfold softReset; split <;> rfl

@[simp] theorem softReset_trace (s : State) : (softReset s).trace = s.trace := by
  unfold softReset; split <;> rfl

end Sys2Proof.Machine
end

section
/-! PROOFS. The invariant of the block (rule R25), and what no step and no byte writes (rules R24,
R14). -/

namespace Sys2Proof.Machine

theorem State.resetWith_legal (cfg : Config) : (State.resetWith cfg).Legal where
  cursor := Nat.zero_le _
  recovering := fun _ => rfl
  buffer := rfl
  events := fun _ he => nomatch he

/-- A state with `WR` = 0 and the cells of a legal one is legal if its further events are. -/
theorem State.Legal.of_wr_zero {s t : State} (hs : s.Legal) (hw : t.wr = 0) (hb : t.buf = s.buf)
    (htrace : ∀ e ∈ t.trace, e ∈ s.trace ∨ e.Legal) : t.Legal where
  cursor := hw ▸ Nat.zero_le _
  recovering := fun _ => hw
  buffer := hb ▸ hs.buffer
  events := fun e he => (htrace e he).elim (hs.events e) id

theorem State.Legal.setPending {s : State} (hs : s.Legal) (moves : List HostMove) :
    (s.setPending moves).Legal := ⟨hs.cursor, hs.recovering, hs.buffer, hs.events⟩

theorem State.Legal.clear {s : State} (hs : s.Legal) : s.clear.Legal :=
  hs.of_wr_zero rfl rfl fun _ he => .inl he

theorem softReset_legal {s : State} (hs : s.Legal) : (softReset s).Legal :=
  hs.of_wr_zero (by simp) (by simp) fun _ he => .inl (by simpa using he)

theorem hardReset_legal {s : State} (hs : s.Legal) : (hardReset s).Legal :=
  hs.of_wr_zero rfl rfl fun _ he => nomatch he

/-- A cause with a state change (rule R122) leaves a legal state legal. -/
theorem raise_legal {d : Diag} {s : State} (hs : s.Legal) (hd : (Event.diag d).Legal)
    (hw : (raise d s).wr = 0) : (raise d s).Legal :=
  hs.of_wr_zero hw (by simp) fun e he => by
    rcases List.mem_append.mp (raise_trace d s ▸ he) with he | he
    · exact .inl he
    · exact .inr (List.mem_singleton.mp he ▸ hd)

theorem State.Legal.dispatch {s : State} (hs : s.Legal) : s.dispatch.Legal :=
  hs.of_wr_zero rfl rfl fun e he => by
    rcases List.mem_append.mp (s.dispatch_trace ▸ he) with he | he
    · exact .inl he
    · exact .inr (event_legal (State.command_wf hs.cursor) (Option.mem_toList.mp he))

theorem ByteStep.legal {b : Byte} {s t : State} (h : ByteStep b s t) (hs : s.Legal) : t.Legal := by
  cases h with
  | dispatch hd hw => exact hs.dispatch
  | escape hf hd => exact ⟨hs.cursor, fun h => (nomatch h), hs.buffer, hs.events⟩
  | store v hf hd hw =>
    exact ⟨hw, fun h => (nomatch h), Memory.wf_write v hs.buffer hw, hs.events⟩
  | overrun hf hd hw => exact raise_legal hs trivial rfl
  | violation hf hd => exact raise_legal hs trivial rfl
  | recovery hf hd => exact raise_legal hs trivial rfl
  | skip hf hd => exact hs

/-- Settles O3: nothing is stored and nothing emitted after reset. -/
theorem resetStatesAreLegal : Obligations.ResetStatesAreLegal :=
  ⟨State.resetWith_legal, State.resetWith_legal _⟩

/-- Settles O5: a byte and both resets keep the invariant; a dispatched command is well-formed, so that
its event is within its ranges. -/
theorem everyStepKeepsTheStateLegal : Obligations.EveryStepKeepsTheStateLegal := by
  intro s t hs h
  rcases step_cases h with rfl | ⟨m, moves, -, hm⟩
  · exact hs
  · rcases takeMove_cases hm with ⟨b, -, hb⟩ | ⟨-, rfl⟩ | ⟨-, rfl⟩
    · exact hb.legal (hs.setPending moves)
    · exact softReset_legal (hs.setPending moves)
    · exact hardReset_legal (hs.setPending moves)

/-- Settles O11: no operation a move performs writes the parameters. -/
theorem parametersAreNeverWritten : Obligations.ParametersAreNeverWritten := by
  intro s t h
  rcases step_cases h with rfl | ⟨m, moves, -, hm⟩
  · rfl
  · rcases takeMove_cases hm with ⟨b, -, hb⟩ | ⟨-, rfl⟩ | ⟨-, rfl⟩
    · exact hb.params_eq
    · exact softReset_params _
    · rfl

/-- Settles O43: only the dispatch of a frame writes Last Color. -/
theorem onlyColoredRectanglesWriteLastColor : Obligations.OnlyColoredRectanglesWriteLastColor := by
  intro b s t h
  rw [(byteStep_of_next h).lc_eq]
  simp only [dispatches_iff]
  rfl

end Sys2Proof.Machine
end

section
/-! PROOFS. The cells at and above `WR` are unobservable (rule R19): every operation of a step takes two
states that differ at most there to two such states. -/

namespace Sys2Proof.Machine

namespace SameButStale

variable {s t : State}

theorem setFstate (h : SameButStale s t) (f : FState) :
    SameButStale (s.setFstate f) (t.setFstate f) := { h with fstate := rfl }

theorem setLc (h : SameButStale s t) (c : Color) : SameButStale (s.setLc c) (t.setLc c) :=
  { h with lc := rfl }

theorem setPending (h : SameButStale s t) (moves : List HostMove) :
    SameButStale (s.setPending moves) (t.setPending moves) := { h with pending := rfl }

theorem setWr_zero (h : SameButStale s t) : SameButStale (s.setWr 0) (t.setWr 0) :=
  { h with wr := rfl, live := fun _ ha => absurd ha (Nat.not_lt_zero _) }

theorem clearTrace (h : SameButStale s t) : SameButStale s.clearTrace t.clearTrace :=
  { h with trace := rfl }

theorem emit (h : SameButStale s t) (e : Event) : SameButStale (s.emit e) (t.emit e) :=
  { h with trace := congrArg (· ++ [e]) h.trace }

/-- Storing at `WR` and advancing it makes one more cell live, in which the two agree. -/
theorem store (h : SameButStale s t) (v : Byte) :
    SameButStale ((s.store s.wr v).setWr (s.wr + 1)) ((t.store t.wr v).setWr (t.wr + 1)) :=
  { h with
    wr := congrArg (· + 1) h.wr
    live := fun a ha => by
      have ha : a < s.wr + 1 := ha
      simp only [State.setWr_buf, State.store_buf, ← h.wr]
      by_cases hw : a = s.wr
      · subst hw; simp
      · rw [Memory.read_write_other _ _ hw, Memory.read_write_other _ _ hw]
        exact h.live a (by omega) }

theorem raise (h : SameButStale s t) (d : Diag) : SameButStale (raise d s) (raise d t) := by
  have he := h.emit (.diag d)
  cases d with
  | framingViolation => exact he.setWr_zero.setFstate _
  | malformedLength op len => exact he
  | unknownOpcode op len => exact he
  | overrun => exact he.setWr_zero.setFstate _
  | recovered => exact he.setWr_zero.setFstate _

theorem append (h : SameButStale s t) (v : Byte) : SameButStale (append v s) (append v t) := by
  by_cases hw : s.wr < cap
  · rw [append_of_lt v hw, append_of_lt v (h.wr ▸ hw)]
    exact (h.store v).setFstate _
  · rw [append_of_full v hw, append_of_full v (h.wr ▸ hw)]
    exact h.raise _

theorem softReset (h : SameButStale s t) : SameButStale (softReset s) (softReset t) := by
  have hn := (h.setFstate .normal).setWr_zero
  cases hc : s.params.softResetClearsColor with
  | true =>
    rw [softReset_clears hc, softReset_clears (h.params ▸ hc), ← h.params]
    exact hn.setLc _
  | false =>
    rw [softReset_keeps hc, softReset_keeps (h.params ▸ hc)]
    exact hn

theorem hardReset (h : SameButStale s t) : SameButStale (hardReset s) (hardReset t) := by
  unfold Machine.hardReset
  rw [← h.params]
  exact ((h.setFstate .normal).setWr_zero.setLc _).clearTrace

/-- The frame dispatched lies below `WR`, so that both states decode the same command. -/
theorem command_eq (h : SameButStale s t) : s.command = t.command := by
  unfold State.command
  rw [h.params, State.frame_congr h.wr h.live]

theorem dispatch (h : SameButStale s t) : SameButStale s.dispatch t.dispatch where
  fstate := rfl
  wr := rfl
  live := fun _ ha => absurd ha (Nat.not_lt_zero _)
  lc := by simp [h.command_eq, h.lc]
  trace := by simp [h.command_eq, h.lc, h.trace]
  params := h.params
  pending := h.pending

/-- The step of a byte, whose symbol the common Decoder State selects. -/
theorem stepByte (h : SameButStale s t) (hw : s.wr ≤ cap) (b : Byte) :
    ∃ s' t', stepByte b s = .next s' ∧ stepByte b t = .next t' ∧ SameButStale s' t' := by
  unfold Machine.stepByte
  rw [← h.fstate]
  cases hs : s.fstate with
  | normal =>
    simp only [decodeSymbol]
    split_ifs
    · exact ⟨_, _, execNEnd_of_le hw, execNEnd_of_le (h.wr ▸ hw), h.dispatch⟩
    · exact ⟨_, _, rfl, rfl, h.setFstate _⟩
    · exact ⟨_, _, rfl, rfl, h.append b⟩
  | escaped =>
    simp only [decodeSymbol]
    split_ifs
    · exact ⟨_, _, rfl, rfl, h.append delim⟩
    · exact ⟨_, _, rfl, rfl, h.append esc⟩
    · exact ⟨_, _, rfl, rfl, h.raise _⟩
  | recovering =>
    simp only [decodeSymbol]
    split_ifs
    · exact ⟨_, _, rfl, rfl, h.raise _⟩
    · exact ⟨_, _, rfl, rfl, h⟩

theorem takeMove (h : SameButStale s t) (hw : s.wr ≤ cap) (m : HostMove) :
    ∃ s' t', takeMove m s = .next s' ∧ takeMove m t = .next t' ∧ SameButStale s' t' := by
  cases m with
  | byte b => exact h.stepByte hw b
  | softReset => exact ⟨_, _, rfl, rfl, h.softReset⟩
  | hardReset => exact ⟨_, _, rfl, rfl, h.hardReset⟩

theorem step (h : SameButStale s t) (hw : s.wr ≤ cap) :
    ∃ s' t', step s = .next s' ∧ step t = .next t' ∧ SameButStale s' t' := by
  cases hp : s.pending with
  | nil => exact ⟨s, t, step_of_pending_nil hp, step_of_pending_nil (h.pending ▸ hp), h⟩
  | cons m moves =>
    rw [step_of_pending_cons hp, step_of_pending_cons (h.pending ▸ hp)]
    exact (h.setPending moves).takeMove hw m

end SameButStale

/-- (a) of rule R25 alone is kept by every step. -/
theorem step_wr_le {s t : State} (h : step s = .next t) (hs : s.wr ≤ cap) : t.wr ≤ cap := by
  rcases step_cases h with rfl | ⟨m, moves, -, hm⟩
  · exact hs
  · rcases takeMove_cases hm with ⟨b, -, hb⟩ | ⟨-, rfl⟩ | ⟨-, rfl⟩
    · exact hb.wr_le hs
    · simp
    · exact Nat.zero_le _

/-- Settles O45, by induction on the number of steps. -/
theorem staleCellsAreUnobservable : Obligations.StaleCellsAreUnobservable := by
  intro n
  induction n with
  | zero => exact fun s t h _ => ⟨s, t, rfl, rfl, h⟩
  | succ n ih =>
    intro s t h hw
    obtain ⟨s', t', hs, ht, h'⟩ := h.step hw
    simp only [runSteps, hs, ht]
    exact ih s' t' h' (step_wr_le hs hw)

end Sys2Proof.Machine
end

section
/-! SUPPORT. What a clock cycle can do, said once: an equation per case of `cycle`, and the relation
`CycleStep` between the interface states around a cycle. -/

namespace Sys2Proof.Machine

variable {i : SignalIn} {σ τ : SignalState}

/-! ### The cases of a cycle -/

theorem cycle_hardReset (hr : i.rst = true) :
    cycle i σ = .next ⟨hardReset σ.core, .idle, false, none⟩ := by
  simp [cycle, hr]

theorem cycle_softReset (hr : i.rst = false) (hd : σ.delivery = .idle)
    (ha : softResetAsked i σ = true) :
    cycle i σ = .next ⟨softReset σ.core, .idle, false, none⟩ := by
  simp [cycle, hr, hd, ha]

theorem cycle_byte (hr : i.rst = false) (hd : σ.delivery = .idle) (ha : softResetAsked i σ = false)
    (hv : i.inValid = true) : cycle i σ = takeByte i.inData σ := by
  simp [cycle, hr, hd, ha, hv]

theorem cycle_wait (hr : i.rst = false) (hd : σ.delivery = .idle) (ha : softResetAsked i σ = false)
    (hv : i.inValid = false) : cycle i σ = .next ⟨σ.core, .idle, false, none⟩ := by
  simp [cycle, hr, hd, ha, hv]

theorem cycle_command_taken {e : Event} (hr : i.rst = false) (hd : σ.delivery = .command e)
    (hc : i.cmdReady = true) : cycle i σ = .next (afterCommand (softResetAsked i σ) e σ) := by
  simp [cycle, hr, hd, hc]

theorem cycle_command_stalled {e : Event} (hr : i.rst = false) (hd : σ.delivery = .command e)
    (hc : i.cmdReady = false) :
    cycle i σ = .next ⟨σ.core, .command e, softResetAsked i σ, none⟩ := by
  simp [cycle, hr, hd, hc]

theorem cycle_beat_taken {v : Byte} {rest : List Byte} (hr : i.rst = false)
    (hd : σ.delivery = .samples v rest) (hs : i.smpReady = true) :
    cycle i σ = .next (nextBeat (softResetAsked i σ) rest σ) := by
  simp [cycle, hr, hd, hs]

theorem cycle_beat_stalled {v : Byte} {rest : List Byte} (hr : i.rst = false)
    (hd : σ.delivery = .samples v rest) (hs : i.smpReady = false) :
    cycle i σ = .next ⟨σ.core, .samples v rest, softResetAsked i σ, none⟩ := by
  simp [cycle, hr, hd, hs]

theorem cycle_report (hr : i.rst = false) (hd : σ.delivery = .report) :
    cycle i σ = .next (endDelivery (softResetAsked i σ) σ) := by
  simp [cycle, hr, hd]

/-- The interface state after a cycle: one constructor per thing a cycle can do. -/
inductive CycleStep (i : SignalIn) (σ : SignalState) : SignalState → Prop where
  | hardReset (hr : i.rst = true) : CycleStep i σ ⟨hardReset σ.core, .idle, false, none⟩
  | softReset (hr : i.rst = false) (hd : σ.delivery = .idle) (ha : softResetAsked i σ = true) :
      CycleStep i σ ⟨softReset σ.core, .idle, false, none⟩
  | byte (hr : i.rst = false) (hd : σ.delivery = .idle) (ha : softResetAsked i σ = false)
      (hv : i.inValid = true) (t : State) (ht : stepByte i.inData σ.core = .next t) :
      CycleStep i σ (startDelivery (dispatches σ.core.fstate i.inData) σ.core t)
  | wait (hr : i.rst = false) (hd : σ.delivery = .idle) (ha : softResetAsked i σ = false)
      (hv : i.inValid = false) : CycleStep i σ ⟨σ.core, .idle, false, none⟩
  /-- The sink is not ready. -/
  | stall (hr : i.rst = false) (hd : σ.delivery ≠ .idle) (hp : σ.delivery ≠ .report) :
      CycleStep i σ ⟨σ.core, σ.delivery, softResetAsked i σ, none⟩
  /-- The command of a WAVE with samples is taken. -/
  | firstBeat (hr : i.rst = false) (p1 p2 p3 v : Byte) (rest : List Byte)
      (hd : σ.delivery = .command (.wave p1 p2 p3 (v :: rest))) :
      CycleStep i σ ⟨σ.core, .samples v rest, softResetAsked i σ, none⟩
  /-- A beat that is not the last is taken. -/
  | nextBeat (hr : i.rst = false) (w v : Byte) (rest : List Byte)
      (hd : σ.delivery = .samples w (v :: rest)) :
      CycleStep i σ ⟨σ.core, .samples v rest, softResetAsked i σ, none⟩
  /-- The delivery ends. -/
  | finish (hr : i.rst = false) (hd : σ.delivery ≠ .idle) :
      CycleStep i σ (endDelivery (softResetAsked i σ) σ)

/-- A command that is taken ends the delivery, unless it is a WAVE with samples. -/
theorem cycleStep_afterCommand {e : Event} (hr : i.rst = false) (hd : σ.delivery = .command e) :
    CycleStep i σ (afterCommand (softResetAsked i σ) e σ) := by
  have hidle : σ.delivery ≠ .idle := by simp [hd]
  cases e with
  | wave p1 p2 p3 samples =>
    cases samples with
    | nil => exact .finish hr hidle
    | cons v rest => exact .firstBeat hr p1 p2 p3 v rest hd
  | rect => exact .finish hr hidle
  | text => exact .finish hr hidle
  | font => exact .finish hr hidle
  | diag => exact .finish hr hidle

theorem takeByte_next {b : Byte} (h : takeByte b σ = .next τ) :
    ∃ t, stepByte b σ.core = .next t ∧ τ = startDelivery (dispatches σ.core.fstate b) σ.core t := by
  unfold takeByte at h
  split at h
  · next t ht => cases h; exact ⟨t, ht, rfl⟩
  · cases h
  · cases h

theorem takeByte_of_next {b : Byte} {t : State} (h : stepByte b σ.core = .next t) :
    takeByte b σ = .next (startDelivery (dispatches σ.core.fstate b) σ.core t) := by
  unfold takeByte
  rw [h]

/-- A cycle does one of the things `CycleStep` lists, or takes a byte whose step stops. -/
theorem cycle_outcome (i : SignalIn) (σ : SignalState) :
    (∃ τ, cycle i σ = .next τ ∧ CycleStep i σ τ) ∨
      (cycle i σ = takeByte i.inData σ ∧ σ.delivery = .idle ∧ i.rst = false ∧
        softResetAsked i σ = false ∧ i.inValid = true) := by
  cases hr : i.rst with
  | true => exact .inl ⟨_, cycle_hardReset hr, .hardReset hr⟩
  | false =>
    cases hd : σ.delivery with
    | idle =>
      cases ha : softResetAsked i σ with
      | true => exact .inl ⟨_, cycle_softReset hr hd ha, .softReset hr hd ha⟩
      | false =>
        cases hv : i.inValid with
        | true => exact .inr ⟨cycle_byte hr hd ha hv, rfl, rfl, rfl, rfl⟩
        | false => exact .inl ⟨_, cycle_wait hr hd ha hv, .wait hr hd ha hv⟩
    | command e =>
      cases hc : i.cmdReady with
      | true => exact .inl ⟨_, cycle_command_taken hr hd hc, cycleStep_afterCommand hr hd⟩
      | false =>
        exact .inl ⟨_, cycle_command_stalled hr hd hc, hd ▸ .stall hr (by simp [hd]) (by simp [hd])⟩
    | samples v rest =>
      cases hs : i.smpReady with
      | true =>
        refine .inl ⟨_, cycle_beat_taken hr hd hs, ?_⟩
        cases rest with
        | nil => exact .finish hr (by simp [hd])
        | cons w rest => exact .nextBeat hr v w rest hd
      | false =>
        exact .inl ⟨_, cycle_beat_stalled hr hd hs, hd ▸ .stall hr (by simp [hd]) (by simp [hd])⟩
    | report => exact .inl ⟨_, cycle_report hr hd, .finish hr (by simp [hd])⟩

theorem cycleStep_of_next (h : cycle i σ = .next τ) : CycleStep i σ τ := by
  rcases cycle_outcome i σ with ⟨τ', hτ', hstep⟩ | ⟨hb, hd, hr, ha, hv⟩
  · cases hτ'.symm.trans h
    exact hstep
  · obtain ⟨t, ht, rfl⟩ := takeByte_next (hb.symm.trans h)
    exact .byte hr hd ha hv t ht

/-- With something under delivery, or with `WR` at most the capacity, a cycle goes on. -/
theorem cycle_goesOn (i : SignalIn) (h : σ.delivery ≠ .idle ∨ σ.core.wr ≤ cap) :
    ∃ τ, cycle i σ = .next τ ∧ CycleStep i σ τ := by
  rcases cycle_outcome i σ with hnext | ⟨hb, hd, -⟩
  · exact hnext
  · obtain ⟨t, ht, -⟩ := stepByte_goesOn i.inData (h.resolve_left (fun hn => hn hd))
    have hτ := hb.trans (takeByte_of_next ht)
    exact ⟨_, hτ, cycleStep_of_next hτ⟩

/-! ### The pins -/

theorem softResetAsked_iff : softResetAsked i σ = true ↔ i.softReset = true ∨ σ.held = true := by
  simp [softResetAsked]

theorem inReady_iff : (outputs i σ).inReady = true ↔
    i.rst = false ∧ softResetAsked i σ = false ∧ σ.delivery = .idle := by
  simp [outputs_inReady, inReady, and_assoc]

/-- The outputs where no command and no beat is offered. -/
def reportOut (i : SignalIn) (σ : SignalState) : SignalOut :=
  match σ.report with
  | some d => driveDiag d (quietOut (inReady i σ))
  | none => quietOut (inReady i σ)

theorem reportOut_some {d : Diag} (h : σ.report = some d) :
    reportOut i σ = driveDiag d (quietOut (inReady i σ)) := by
  simp [reportOut, h]

theorem reportOut_none (h : σ.report = none) : reportOut i σ = quietOut (inReady i σ) := by
  simp [reportOut, h]

theorem reportOut_command_port : (reportOut i σ).cmdValid = false := by
  unfold reportOut; split <;> rfl

theorem reportOut_sample_port : (reportOut i σ).smpValid = false ∧ (reportOut i σ).smpLast = false := by
  unfold reportOut; split <;> exact ⟨rfl, rfl⟩

theorem outputs_of_rst (hr : i.rst = true) : outputs i σ = quietOut false := if_pos hr

theorem outputs_idle (hr : i.rst = false) (hd : σ.delivery = .idle) :
    outputs i σ = reportOut i σ := by
  simp only [outputs, hr, hd]; rfl

theorem outputs_report (hr : i.rst = false) (hd : σ.delivery = .report) :
    outputs i σ = reportOut i σ := by
  simp only [outputs, hr, hd]; rfl

theorem outputs_command {e : Event} (hr : i.rst = false) (hd : σ.delivery = .command e) :
    outputs i σ = driveCommand e (reportOut i σ) := by
  simp only [outputs, hr, hd]; rfl

theorem outputs_samples {v : Byte} {rest : List Byte} (hr : i.rst = false)
    (hd : σ.delivery = .samples v rest) : outputs i σ =
      { reportOut i σ with smpValid := true, smpData := some v, smpLast := rest.isEmpty } := by
  simp only [outputs, hr, hd]; rfl

/-- Two outputs that agree on the diagnostics port. -/
structure SameDiagPort (o o' : SignalOut) : Prop where
  valid : o.diagValid = o'.diagValid
  cause : o.diagCause = o'.diagCause
  opv : o.diagOpv = o'.diagOpv
  op : o.diagOp = o'.diagOp
  len : o.diagLen = o'.diagLen

/-- What is on the command and sample ports makes no difference to the diagnostics port. -/
theorem outputs_sameDiagPort (hr : i.rst = false) : SameDiagPort (outputs i σ) (reportOut i σ) := by
  cases hd : σ.delivery with
  | idle => rw [outputs_idle hr hd]; exact ⟨rfl, rfl, rfl, rfl, rfl⟩
  | report => rw [outputs_report hr hd]; exact ⟨rfl, rfl, rfl, rfl, rfl⟩
  | samples v rest => rw [outputs_samples hr hd]; exact ⟨rfl, rfl, rfl, rfl, rfl⟩
  | command e => rw [outputs_command hr hd]; cases e <;> exact ⟨rfl, rfl, rfl, rfl, rfl⟩

theorem driveCommand_sample_port (e : Event) (o : SignalOut) :
    (driveCommand e o).smpValid = o.smpValid ∧ (driveCommand e o).smpLast = o.smpLast := by
  cases e <;> exact ⟨rfl, rfl⟩

/-- With no command offered the command port is not valid. -/
theorem outputs_no_command (hr : i.rst = false) (h : ∀ e, σ.delivery ≠ .command e) :
    (outputs i σ).cmdValid = false := by
  cases hd : σ.delivery with
  | idle => rw [outputs_idle hr hd]; exact reportOut_command_port
  | report => rw [outputs_report hr hd]; exact reportOut_command_port
  | samples v rest => rw [outputs_samples hr hd]; exact reportOut_command_port
  | command e => exact absurd hd (h e)

/-- With no beat offered the sample port is not valid. -/
theorem outputs_no_beat (hr : i.rst = false) (h : ∀ v rest, σ.delivery ≠ .samples v rest) :
    (outputs i σ).smpValid = false ∧ (outputs i σ).smpLast = false := by
  cases hd : σ.delivery with
  | idle => rw [outputs_idle hr hd]; exact reportOut_sample_port
  | report => rw [outputs_report hr hd]; exact reportOut_sample_port
  | samples v rest => exact absurd hd (h v rest)
  | command e =>
    rw [outputs_command hr hd, (driveCommand_sample_port e _).1, (driveCommand_sample_port e _).2]
    exact reportOut_sample_port

/-- A reported diagnostic is on the diagnostics port with its code and its data (rule R122). -/
theorem outputs_reported {d : Diag} (hr : i.rst = false) (h : σ.report = some d) :
    (outputs i σ).diagValid = true ∧ (outputs i σ).diagCause = d.code ∧
      (outputs i σ).diagOpv = d.opcode.isSome ∧ (outputs i σ).diagOp = d.opcode ∧
      (outputs i σ).diagLen = d.length.map (BitVec.ofNat 10) := by
  obtain ⟨hvalid, hcause, hopv, hop, hlen⟩ := outputs_sameDiagPort (σ := σ) hr
  rw [reportOut_some h] at hvalid hcause hopv hop hlen
  exact ⟨hvalid, hcause, hopv, hop, hlen⟩

/-- The part of it a cause without data fills. -/
theorem outputs_notice {d : Diag} (hr : i.rst = false) (h : σ.report = some d) :
    (outputs i σ).diagValid = true ∧ (outputs i σ).diagCause = d.code ∧
      (outputs i σ).diagOpv = d.opcode.isSome := by
  obtain ⟨hvalid, hcause, hopv, -, -⟩ := outputs_reported hr h
  exact ⟨hvalid, hcause, hopv⟩

theorem outputs_not_reported (hr : i.rst = false) (h : σ.report = none) :
    (outputs i σ).diagValid = false ∧ (outputs i σ).diagCause = 0 ∧
      (outputs i σ).diagOpv = false := by
  obtain ⟨hvalid, hcause, hopv, -, -⟩ := outputs_sameDiagPort (σ := σ) hr
  rw [reportOut_none h] at hvalid hcause hopv
  exact ⟨hvalid, hcause, hopv⟩

/-- Settles O50: each port is read off the equation of `outputs` for what it carries. -/
theorem portsCarryTheEvent : Obligations.PortsCarryTheEvent := by
  intro i σ hr
  refine ⟨?rect, ?text, ?wave, ?font, ?beat, fun _ _ => outputs_reported hr,
    fun _ _ => outputs_reported hr, outputs_notice hr, outputs_notice hr, outputs_notice hr,
    outputs_no_command hr, outputs_no_beat hr, outputs_not_reported hr⟩
  case rect => intro x y w h r g b hd; simp [outputs_command hr hd, driveCommand]
  case text => intro c x y r g b hd; simp [outputs_command hr hd, driveCommand]
  case wave => intro p1 p2 p3 samples hd; simp [outputs_command hr hd, driveCommand]
  case font => intro f hd; simp [outputs_command hr hd, driveCommand]
  case beat => intro v rest hd; simp [outputs_samples hr hd]

/-- Settles O52: `in_ready` is the condition a byte is taken on, and under `rst` every output is at
rest. -/
theorem inReadyIsLowUnderResetAndDelivery : Obligations.InReadyIsLowUnderResetAndDelivery := by
  intro i σ
  refine ⟨?_, fun hr => ?_⟩
  · rw [inReady_iff]
    simp [softResetAsked, and_assoc]
  · rw [outputs_of_rst hr]
    exact ⟨rfl, rfl, rfl, rfl⟩

end Sys2Proof.Machine
end

section
/-! PROOFS. The cycle refines the step of the abstract machine, and what the interface holds is the
event last emitted (rule R27). -/

namespace Sys2Proof.Machine

variable {i : SignalIn} {σ τ : SignalState}

/-! ### A byte taken -/

section
variable {b : Byte} {s t : State} (h : ByteEmits b s t)
include h

/-- The abstract machine is in the state the step of the byte leads to. -/
theorem startDelivery_abstract : (startDelivery (dispatches s.fstate b) s t).abstract = t := by
  have cleared (hw : t.wr = 0) : (t.setWr s.wr).clear = t := by
    obtain ⟨f, wr, buf, lc, trace, params, pending⟩ := t
    cases hw
    rfl
  cases h with
  | silent ht => rw [startDelivery_silent _ (newEvent_of_silent ht)]; rfl
  | command e ht he hd hf hw =>
    rw [startDelivery_command _ (newEvent_of_emits ht) he]; exact cleared hw
  | dropped d ht hframe hd hf hw =>
    rw [hd, startDelivery_report (newEvent_of_emits ht)]; exact cleared hw
  | notice d ht hd => rw [hd, startDelivery_notice (newEvent_of_emits ht)]; rfl

theorem startDelivery_legal (hs : s.wr ≤ cap) (ht : t.Legal) :
    (startDelivery (dispatches s.fstate b) s t).core.Legal := by
  have held (hf : t.fstate = .normal) : (t.setWr s.wr).Legal :=
    ⟨hs, fun hr => by simp [hf] at hr, ht.buffer, ht.events⟩
  cases h with
  | silent hst => rw [startDelivery_silent _ (newEvent_of_silent hst)]; exact ht
  | command e hst he hd hf hw =>
    rw [startDelivery_command _ (newEvent_of_emits hst) he]; exact held hf
  | dropped d hst hframe hd hf hw =>
    rw [hd, startDelivery_report (newEvent_of_emits hst)]; exact held hf
  | notice d hst hd => rw [hd, startDelivery_notice (newEvent_of_emits hst)]; exact ht

end

/-! ### Consistency -/

theorem lastEvent_of_emits {s t : State} {e : Event} (h : t.trace = s.trace ++ [e]) :
    lastEvent t = some e := by
  simp [lastEvent, h]

/-- With nothing under delivery or reported there is nothing to be consistent. -/
theorem consistent_of_quiet (hd : σ.delivery = .idle) (hr : σ.report = none) : σ.Consistent where
  normal := fun h => absurd hd h
  command := fun e h => by simp [hd] at h
  samples := fun v rest h => by simp [hd] at h
  reported := fun d h => by simp [hr] at h
  dropped := fun h => by simp [hd] at h

theorem consistent_beat {core : State} {v p1 p2 p3 : Byte} {rest taken : List Byte} (held : Bool)
    (hf : core.fstate = .normal) (hl : lastEvent core = some (.wave p1 p2 p3 (taken ++ v :: rest))) :
    (SignalState.mk core (.samples v rest) held none).Consistent where
  normal := fun _ => hf
  command := fun e h => nomatch h
  samples := fun w ws h => by cases h; exact ⟨p1, p2, p3, taken, hl⟩
  reported := fun d h => nomatch h
  dropped := fun h => nomatch h

theorem startDelivery_consistent {b : Byte} {s t : State} (h : ByteEmits b s t) :
    (startDelivery (dispatches s.fstate b) s t).Consistent := by
  cases h with
  | silent ht =>
    rw [startDelivery_silent _ (newEvent_of_silent ht)]
    exact consistent_of_quiet rfl rfl
  | command e ht he hd hf hw =>
    rw [startDelivery_command _ (newEvent_of_emits ht) he]
    exact ⟨fun _ => hf, fun e' h => by cases h; exact ⟨lastEvent_of_emits ht, he⟩,
      fun _ _ h => (nomatch h), fun _ h => (nomatch h), fun h => nomatch h⟩
  | dropped d ht hframe hd hf hw =>
    rw [hd, startDelivery_report (newEvent_of_emits ht)]
    exact ⟨fun _ => hf, fun _ h => (nomatch h), fun _ _ h => (nomatch h),
      fun d' h => by cases h; exact lastEvent_of_emits ht, fun _ => ⟨d, rfl, hframe⟩⟩
  | notice d ht hd =>
    rw [hd, startDelivery_notice (newEvent_of_emits ht)]
    exact ⟨fun h => absurd rfl h, fun _ h => (nomatch h), fun _ _ h => (nomatch h),
      fun d' h => by cases h; exact lastEvent_of_emits ht, fun h => nomatch h⟩

theorem CycleStep.consistent (h : CycleStep i σ τ) (hσ : σ.Consistent) : τ.Consistent := by
  cases h with
  | hardReset => exact consistent_of_quiet rfl rfl
  | softReset => exact consistent_of_quiet rfl rfl
  | byte hr hd ha hv t ht => exact startDelivery_consistent (byteStep_of_next ht).emits
  | wait => exact consistent_of_quiet rfl rfl
  | stall hr hd hp =>
    exact ⟨hσ.normal, hσ.command, hσ.samples, fun _ h => (nomatch h), fun h => absurd h hp⟩
  | firstBeat hr p1 p2 p3 v rest hd =>
    exact consistent_beat (taken := []) _ (hσ.normal (by simp [hd])) (hσ.command _ hd).1
  | nextBeat hr w v rest hd =>
    obtain ⟨p1, p2, p3, taken, hl⟩ := hσ.samples _ _ hd
    exact consistent_beat (taken := taken ++ [w]) _ (hσ.normal (by simp [hd])) (by simpa using hl)
  | finish => exact consistent_of_quiet rfl rfl

/-- Settles O47: each thing a cycle can do keeps the interface consistent. -/
theorem cyclesKeepDeliveryConsistent : Obligations.CyclesKeepDeliveryConsistent :=
  ⟨consistent_of_quiet rfl rfl, fun _ _ _ hσ h => (cycleStep_of_next h).consistent hσ⟩

/-! ### Legality -/

theorem CycleStep.legal (h : CycleStep i σ τ) (hσ : σ.core.Legal) : τ.core.Legal := by
  cases h with
  | hardReset => exact hardReset_legal hσ
  | softReset => exact softReset_legal hσ
  | byte hr hd ha hv t ht =>
    have hb := byteStep_of_next ht
    exact startDelivery_legal hb.emits hσ.cursor (hb.legal hσ)
  | wait => exact hσ
  | stall => exact hσ
  | firstBeat => exact hσ
  | nextBeat => exact hσ
  | finish => exact hσ.clear

/-- Settles O53: in a legal core `WR` is at most the capacity, so that no byte stops the machine. -/
theorem cyclesGoOnFromLegalCores : Obligations.CyclesGoOnFromLegalCores := by
  intro i σ hσ
  obtain ⟨τ, hτ, hstep⟩ := cycle_goesOn i (.inr hσ.cursor)
  exact ⟨τ, hτ, hstep.legal hσ⟩

/-! ### Refinement -/

theorem abstract_of_idle (hd : σ.delivery = .idle) : σ.abstract = σ.core := by
  simp [SignalState.abstract, hd]

theorem abstract_of_delivering (hd : σ.delivery ≠ .idle) : σ.abstract = σ.core.clear := by
  unfold SignalState.abstract
  split
  · exact absurd ‹_› hd
  · rfl
  · rfl
  · rfl

/-- A frame under delivery makes no difference to a hardware reset, which sets `WR` as well. -/
theorem hardReset_abstract (σ : SignalState) : hardReset σ.abstract = hardReset σ.core := by
  unfold SignalState.abstract
  split <;> rfl

/-- The step of the abstract machine that a cycle from `σ` to `τ` performs (rules R27, R129 (a)). -/
def PerformsAbstractStep (i : SignalIn) (σ τ : SignalState) : Prop :=
  if i.rst = true then τ.abstract = hardReset σ.abstract
  else if σ.delivery = .idle ∧ (i.softReset = true ∨ σ.held = true) then
    τ.abstract = softReset σ.abstract
  else if i.inValid = true ∧ (outputs i σ).inReady = true then
    stepByte i.inData σ.abstract = .next τ.abstract
  else τ.abstract = σ.abstract

/-- With something under delivery, no byte is transferred and no soft reset performed. -/
theorem performsAbstractStep_of_delivering (hr : i.rst = false) (hd : σ.delivery ≠ .idle)
    (hτ : τ.abstract = σ.core.clear) : PerformsAbstractStep i σ τ := by
  simp [PerformsAbstractStep, hr, hd, inReady_iff, hτ, abstract_of_delivering hd]

theorem CycleStep.performsAbstractStep (h : CycleStep i σ τ) : PerformsAbstractStep i σ τ := by
  cases h with
  | hardReset hr =>
    rw [PerformsAbstractStep, if_pos hr, hardReset_abstract]
    rfl
  | softReset hr hd ha =>
    rw [PerformsAbstractStep, if_neg (by simp [hr]), if_pos ⟨hd, softResetAsked_iff.mp ha⟩,
      abstract_of_idle hd]
    rfl
  | byte hr hd ha hv t ht =>
    have hready : (outputs i σ).inReady = true := inReady_iff.mpr ⟨hr, ha, hd⟩
    rw [PerformsAbstractStep, if_neg (by simp [hr]), if_neg (by simp [← softResetAsked_iff, ha]),
      if_pos ⟨hv, hready⟩, abstract_of_idle hd, startDelivery_abstract (byteStep_of_next ht).emits]
    exact ht
  | wait hr hd ha hv =>
    rw [PerformsAbstractStep, if_neg (by simp [hr]), if_neg (by simp [← softResetAsked_iff, ha]),
      if_neg (by simp [hv]), abstract_of_idle hd]
    rfl
  | stall hr hd hp => exact performsAbstractStep_of_delivering hr hd (abstract_of_delivering hd)
  | firstBeat hr p1 p2 p3 v rest hd =>
    exact performsAbstractStep_of_delivering hr (by simp [hd]) rfl
  | nextBeat hr w v rest hd => exact performsAbstractStep_of_delivering hr (by simp [hd]) rfl
  | finish hr hd => exact performsAbstractStep_of_delivering hr hd rfl

theorem startDelivery_held (dispatched : Bool) (s t : State) :
    (startDelivery dispatched s t).held = false := by
  unfold startDelivery
  split
  · rfl
  · split <;> rfl
  · rfl

/-- After a hardware reset or a cycle with nothing under delivery no soft reset is held. -/
theorem CycleStep.held_eq_false (h : CycleStep i σ τ) (hi : i.rst = true ∨ σ.delivery = .idle) :
    τ.held = false := by
  cases h with
  | hardReset => rfl
  | softReset => rfl
  | byte => exact startDelivery_held ..
  | wait => rfl
  | stall hr hd hp => simp [hr, hd] at hi
  | firstBeat hr p1 p2 p3 v rest hd => simp [hr, hd] at hi
  | nextBeat hr w v rest hd => simp [hr, hd] at hi
  | finish hr hd => simp [hr, hd] at hi

/-- Settles O46: each thing a cycle can do is one step of the abstract machine or none. -/
theorem cyclesRefineAbstractSteps : Obligations.CyclesRefineAbstractSteps := fun _ _ _ h =>
  ⟨(cycleStep_of_next h).performsAbstractStep, (cycleStep_of_next h).held_eq_false⟩

/-! ### The event offered next -/

theorem startDelivery_buf (dispatched : Bool) (s t : State) :
    (startDelivery dispatched s t).core.buf = t.buf := by
  unfold startDelivery
  split
  · rfl
  · split <;> rfl
  · rfl

/-- `WR` is kept while something is under delivery. -/
theorem startDelivery_wr {dispatched : Bool} {s t : State}
    (h : (startDelivery dispatched s t).delivery ≠ .idle) :
    (startDelivery dispatched s t).core.wr = s.wr := by
  unfold startDelivery at h ⊢
  split
  · simp_all
  · split <;> simp_all
  · rfl

theorem startDelivery_diag {b : Byte} {s t : State} {d : Diag} (h : newEvent s t = some (.diag d)) :
    (startDelivery (dispatches s.fstate b) s t).report = some d ∧
      (startDelivery (dispatches s.fstate b) s t).delivery =
        if s.fstate = .normal ∧ b = 0xC0 then .report else .idle := by
  cases hd : dispatches s.fstate b with
  | true =>
    rw [startDelivery_report h, if_pos (dispatches_iff.mp hd)]
    exact ⟨rfl, rfl⟩
  | false =>
    rw [startDelivery_notice h, if_neg (mt dispatches_iff.mpr (by simp [hd]))]
    exact ⟨rfl, rfl⟩

theorem CycleStep.report_eq_none (h : CycleStep i σ τ)
    (hi : ¬ (i.inValid = true ∧ (outputs i σ).inReady = true)) : τ.report = none := by
  cases h with
  | hardReset => rfl
  | softReset => rfl
  | byte hr hd ha hv t ht => exact absurd ⟨hv, inReady_iff.mpr ⟨hr, ha, hd⟩⟩ hi
  | wait => rfl
  | stall => rfl
  | firstBeat => rfl
  | nextBeat => rfl
  | finish => rfl

/-- Settles O51: the delivery starts from the event the step added to the trace. -/
theorem takenByteOffersItsEvent : Obligations.TakenByteOffersItsEvent := by
  refine ⟨fun i σ t hv hready ht => ?_, fun i σ τ hi h => (cycleStep_of_next h).report_eq_none hi⟩
  obtain ⟨hr, ha, hd⟩ := inReady_iff.mp hready
  refine ⟨_, (cycle_byte hr hd ha hv).trans (takeByte_of_next ht), fun hs => ?_, fun e he hne => ?_,
    fun d he => startDelivery_diag (newEvent_of_emits he), startDelivery_wr, fun a => ?_⟩
  · rw [startDelivery_silent _ (newEvent_of_silent hs)]
    exact ⟨rfl, rfl⟩
  · rw [startDelivery_command _ (newEvent_of_emits he) hne]
    exact ⟨rfl, rfl⟩
  · rw [memRead1, startDelivery_buf, memRead1]

end Sys2Proof.Machine
end

section
/-! PROOFS. What happens while a frame is under delivery (rules R27, R44, R147). -/

namespace Sys2Proof.Machine

variable {i : SignalIn} {σ τ : SignalState}

/-- Under delivery the cells, Last Color and the trace are held, and `WR` until the delivery ends. -/
structure DeliveryHolds (i : SignalIn) (σ τ : SignalState) : Prop where
  bytes : SameBytes σ.core τ.core
  held : τ.held = (i.softReset || σ.held)
  lc : τ.core.lc = σ.core.lc
  trace : τ.core.trace = σ.core.trace
  wr : τ.delivery ≠ .idle → τ.core.wr = σ.core.wr
  cleared : τ.delivery = .idle → τ.core.wr = 0

theorem CycleStep.deliveryHolds (h : CycleStep i σ τ) (hr : i.rst = false)
    (hd : σ.delivery ≠ .idle) : DeliveryHolds i σ τ := by
  cases h with
  | hardReset hr' => simp [hr] at hr'
  | softReset _ hd' => exact absurd hd' hd
  | byte _ hd' => exact absurd hd' hd
  | wait _ hd' => exact absurd hd' hd
  | stall => exact ⟨fun _ => rfl, rfl, rfl, rfl, fun _ => rfl, fun h => absurd h hd⟩
  | firstBeat => exact ⟨fun _ => rfl, rfl, rfl, rfl, fun _ => rfl, fun h => nomatch h⟩
  | nextBeat => exact ⟨fun _ => rfl, rfl, rfl, rfl, fun _ => rfl, fun h => nomatch h⟩
  | finish => exact ⟨fun _ => rfl, rfl, rfl, rfl, fun h => absurd rfl h, fun _ => rfl⟩

/-- Two results of one cycle are the same. -/
theorem cycle_eq {σ' : SignalState} (h : cycle i σ = .next τ) (h' : cycle i σ = .next σ') :
    τ = σ' := by
  cases h.symm.trans h'
  rfl

/-- Settles O48: the frame of a delivery, and one equation of `cycle` for each way it moves on. -/
theorem inputStallsDuringDelivery : Obligations.InputStallsDuringDelivery := by
  intro i σ hr hd
  obtain ⟨τ, hτ, hstep⟩ := cycle_goesOn i (.inl hd)
  obtain ⟨hbytes, hheld, hlc, htrace, hwr, hcleared⟩ := hstep.deliveryHolds hr hd
  refine ⟨by simp [outputs_inReady, inReady, hd], τ, hτ, hbytes, hheld, hlc, htrace, hwr, hcleared,
    ?commandStalls, ?beatStalls, ?plainTaken, ?waveTaken, ?emptyWaveTaken, ?beatTaken, ?lastTaken,
    ?reported⟩
  case commandStalls => intro e he hc; rw [cycle_eq hτ (cycle_command_stalled hr he hc)]
  case beatStalls => intro v rest hs hc; rw [cycle_eq hτ (cycle_beat_stalled hr hs hc)]
  case plainTaken =>
    intro e he hc hplain
    rw [cycle_eq hτ (cycle_command_taken hr he hc), afterCommand_plain _ _ hplain]
    rfl
  case waveTaken =>
    intro p1 p2 p3 v rest he hc
    rw [cycle_eq hτ (cycle_command_taken hr he hc), afterCommand_wave, nextBeat_cons]
  case emptyWaveTaken =>
    intro p1 p2 p3 he hc
    rw [cycle_eq hτ (cycle_command_taken hr he hc), afterCommand_wave, nextBeat_nil]
    rfl
  case beatTaken =>
    intro v w rest hs hc
    rw [cycle_eq hτ (cycle_beat_taken hr hs hc), nextBeat_cons]
  case lastTaken =>
    intro v hs hc
    rw [cycle_eq hτ (cycle_beat_taken hr hs hc), nextBeat_nil]
    rfl
  case reported =>
    intro hp
    rw [cycle_eq hτ (cycle_report hr hp)]
    rfl

/-! ### The beats of a WAVE -/

theorem runCycles_cons {is : List SignalIn} {σ' : SignalState} {taken beats : List Byte}
    (hc : cycle i σ = .next σ') (hb : beatTaken i σ = taken)
    (hrun : runCycles is σ' = .next (τ, beats)) :
    runCycles (i :: is) σ = .next (τ, taken ++ beats) := by
  simp [runCycles, hc, hb, hrun]

theorem beatTaken_of_stalled (hs : i.smpReady = false) : beatTaken i σ = [] := by
  simp [beatTaken, hs]

theorem beatTaken_of_command {e : Event} (hr : i.rst = false) (hd : σ.delivery = .command e) :
    beatTaken i σ = [] := by
  have hv : (outputs i σ).smpValid = false := (outputs_no_beat hr (by simp [hd])).1
  cases hs : i.smpReady <;> simp [beatTaken, hs, hv]

theorem beatTaken_of_samples {v : Byte} {rest : List Byte} (hr : i.rst = false)
    (hd : σ.delivery = .samples v rest) (hs : i.smpReady = true) : beatTaken i σ = [v] := by
  simp [beatTaken, hs, outputs_samples hr hd]

/-- The delivery has ended, with `WR` = 0. -/
def SignalState.Delivered (σ : SignalState) : Prop := σ.delivery = .idle ∧ σ.core.wr = 0

/-- The inputs `ins` end the delivery of the block after some first part of them, with exactly its
samples taken. -/
def EndsDelivery (ins : List SignalIn) (σ : SignalState) (block : List Byte) : Prop :=
  ∃ before after τ, ins = before ++ after ∧ runCycles before σ = .next (τ, block) ∧ τ.Delivered

theorem EndsDelivery.cons {ins : List SignalIn} {taken block : List Byte} (hc : cycle i σ = .next τ)
    (hb : beatTaken i σ = taken) (h : EndsDelivery ins τ block) :
    EndsDelivery (i :: ins) σ (taken ++ block) := by
  obtain ⟨before, after, ρ, rfl, hrun, hend⟩ := h
  exact ⟨i :: before, after, ρ, rfl, runCycles_cons hc hb hrun, hend⟩

/-- No further input is needed where the delivery has ended. -/
theorem SignalState.Delivered.endsDelivery (h : τ.Delivered) (ins : List SignalIn) :
    EndsDelivery ins τ [] := ⟨[], ins, τ, rfl, rfl, h⟩

/-- The delivery still lasts after the inputs `ins`: of the block some first beats have been taken, and
the next is offered. -/
def Delivering (ins : List SignalIn) (σ : SignalState) (block : List Byte) : Prop :=
  ∃ τ beats v rest, runCycles ins σ = .next (τ, beats) ∧ τ.delivery = .samples v rest ∧
    block = beats ++ v :: rest

theorem Delivering.cons {ins : List SignalIn} {taken block : List Byte} (hc : cycle i σ = .next τ)
    (hb : beatTaken i σ = taken) (h : Delivering ins τ block) :
    Delivering (i :: ins) σ (taken ++ block) := by
  obtain ⟨ρ, beats, v, rest, hrun, hd, rfl⟩ := h
  exact ⟨ρ, _, v, rest, runCycles_cons hc hb hrun, hd, by simp⟩

/-- From an offered beat on, however the sink stalls. -/
theorem beats_delivered (ins : List SignalIn) {σ : SignalState} {v : Byte} {rest : List Byte}
    (hd : σ.delivery = .samples v rest) (hr : ∀ i ∈ ins, i.rst = false) :
    Delivering ins σ (v :: rest) ∨ EndsDelivery ins σ (v :: rest) := by
  induction ins generalizing σ v rest with
  | nil => exact .inl ⟨σ, [], v, rest, rfl, hd, rfl⟩
  | cons i ins ih =>
    obtain ⟨hri, hr⟩ := List.forall_mem_cons.mp hr
    cases hs : i.smpReady with
    | false =>
      have hc := cycle_beat_stalled hri hd hs
      have hb := beatTaken_of_stalled (σ := σ) hs
      exact (ih rfl hr).imp (fun h => h.cons hc hb) (fun h => h.cons hc hb)
    | true =>
      have hc := cycle_beat_taken hri hd hs
      have hb := beatTaken_of_samples hri hd hs
      cases rest with
      | nil =>
        have hend : (endDelivery (softResetAsked i σ) σ).Delivered := ⟨rfl, rfl⟩
        exact .inr ((hend.endsDelivery ins).cons hc hb)
      | cons w rest => exact (ih rfl hr).imp (fun h => h.cons hc hb) (fun h => h.cons hc hb)

/-- From an offered beat on, with the sink always ready: one cycle per beat. -/
theorem beats_delivered_in_time (ins : List SignalIn) {σ : SignalState} {v : Byte} {rest : List Byte}
    (hd : σ.delivery = .samples v rest) (hr : ∀ i ∈ ins, i.rst = false)
    (hs : ∀ i ∈ ins, i.smpReady = true) (hl : ins.length = rest.length + 1) :
    ∃ τ, runCycles ins σ = .next (τ, v :: rest) ∧ τ.Delivered := by
  induction ins generalizing σ v rest with
  | nil => simp at hl
  | cons i ins ih =>
    obtain ⟨hri, hr⟩ := List.forall_mem_cons.mp hr
    obtain ⟨hsi, hs⟩ := List.forall_mem_cons.mp hs
    have hc := cycle_beat_taken hri hd hsi
    have hb := beatTaken_of_samples hri hd hsi
    cases rest with
    | nil =>
      obtain rfl : ins = [] := by simpa using hl
      exact ⟨_, runCycles_cons hc hb rfl, rfl, rfl⟩
    | cons w rest =>
      obtain ⟨τ, hrun, hτ⟩ := ih (σ := ⟨σ.core, .samples w rest, softResetAsked i σ, none⟩) rfl hr hs
        (by simpa using hl)
      exact ⟨τ, runCycles_cons hc hb hrun, hτ⟩

/-- From the offered WAVE command on, however the sink stalls. -/
theorem wave_delivered (ins : List SignalIn) {σ : SignalState} {p1 p2 p3 : Byte} {block : List Byte}
    (hd : σ.delivery = .command (.wave p1 p2 p3 block)) (hr : ∀ i ∈ ins, i.rst = false) :
    (∃ τ, runCycles ins σ = .next (τ, []) ∧ τ.delivery = .command (.wave p1 p2 p3 block)) ∨
      Delivering ins σ block ∨ EndsDelivery ins σ block := by
  induction ins generalizing σ with
  | nil => exact .inl ⟨σ, rfl, hd⟩
  | cons i ins ih =>
    obtain ⟨hri, hr⟩ := List.forall_mem_cons.mp hr
    have hb := beatTaken_of_command hri hd
    cases hc : i.cmdReady with
    | false =>
      have hcyc := cycle_command_stalled hri hd hc
      rcases ih (σ := ⟨σ.core, _, softResetAsked i σ, none⟩) rfl hr with ⟨τ, hrun, hτ⟩ | h
      · exact .inl ⟨τ, runCycles_cons hcyc hb hrun, hτ⟩
      · exact .inr (h.imp (fun h => h.cons hcyc hb) (fun h => h.cons hcyc hb))
    | true =>
      have hcyc := cycle_command_taken hri hd hc
      cases block with
      | nil =>
        have hend : (endDelivery (softResetAsked i σ) σ).Delivered := ⟨rfl, rfl⟩
        exact .inr (.inr ((hend.endsDelivery ins).cons hcyc hb))
      | cons v rest =>
        exact .inr ((beats_delivered ins rfl hr).imp (fun h => h.cons hcyc hb)
          (fun h => h.cons hcyc hb))

/-- From the offered WAVE command on, with both sinks always ready: one cycle for the command and one
per beat. -/
theorem wave_delivered_in_time (ins : List SignalIn) {σ : SignalState} {p1 p2 p3 : Byte}
    {block : List Byte} (hd : σ.delivery = .command (.wave p1 p2 p3 block))
    (hr : ∀ i ∈ ins, i.rst = false) (hready : ∀ i ∈ ins, i.cmdReady = true ∧ i.smpReady = true)
    (hl : ins.length = block.length + 1) :
    ∃ τ, runCycles ins σ = .next (τ, block) ∧ τ.Delivered := by
  cases ins with
  | nil => simp at hl
  | cons i ins =>
    obtain ⟨hri, hr⟩ := List.forall_mem_cons.mp hr
    obtain ⟨⟨hc, -⟩, hready⟩ := List.forall_mem_cons.mp hready
    have hcyc := cycle_command_taken hri hd hc
    have hb := beatTaken_of_command hri hd
    cases block with
    | nil =>
      obtain rfl : ins = [] := by simpa using hl
      exact ⟨_, runCycles_cons hcyc hb rfl, rfl, rfl⟩
    | cons v rest =>
      obtain ⟨τ, hrun, hτ⟩ := beats_delivered_in_time ins
        (σ := ⟨σ.core, .samples v rest, softResetAsked i σ, none⟩) rfl hr
        (fun i hi => (hready i hi).2) (by simpa using hl)
      exact ⟨τ, runCycles_cons hcyc hb hrun, hτ⟩

/-- Settles O49, by induction on the inputs, for a WAVE offered and for a beat offered. -/
theorem waveBeatsFollowInBufferOrder : Obligations.WaveBeatsFollowInBufferOrder := by
  intro p1 p2 p3 samples σ ins hd hr
  refine ⟨?_, fun hl hready => wave_delivered_in_time ins hd hr hready hl⟩
  rcases wave_delivered ins hd hr with ⟨τ, hrun, hτ⟩ | ⟨τ, beats, v, rest, hrun, hτ, hblock⟩ | h
  · exact .inl ⟨τ, [], hrun, .inl ⟨hτ, rfl⟩⟩
  · exact .inl ⟨τ, beats, hrun, .inr ⟨v, rest, hτ, hblock⟩⟩
  · exact .inr h

end Sys2Proof.Machine
end

section
/-! PROOFS. What a read of the buffer answers: a 16-bit field (rule R31), and a frame longer than the
buffer (rule R30; assumption log 7). -/

namespace Sys2Proof.Machine

theorem exec_nEnd (s : State) : exec .nEnd s = execNEnd s := rfl

/-- Settles O21: the decoder, which `N.END` runs first, already stops. -/
theorem nEndStopsWhereNoCellExists : Obligations.NEndStopsWhereNoCellExists := by
  intro s hw
  calc exec .nEnd s
    _ = execNEnd s := exec_nEnd s
    _ = .fault (.absentCell 512) := execNEnd_of_lt hw

/-- Settles O30: a two-byte read is the `u16` of two one-byte reads. -/
theorem fieldsAreLittleEndian : Obligations.FieldsAreLittleEndian := fun s a =>
  u16_toNat (memRead1 s a) (memRead1 s (a + 1))

end Sys2Proof.Machine
end

section
/-! PROOFS. The codec of both levels: the symbol of each (mode, byte) pair (rule R48), and decode and
encode as each other's inverse (rules R45 to R57). -/

namespace Sys2Proof

/-! ### Stream symbols -/

theorem decodeSymbol_normal (b : Byte) :
    decodeSymbol .normal b = if b = delim then .nEnd else if b = esc then .nEsc else .nData b := rfl

theorem decodeSymbol_escaped (b : Byte) :
    decodeSymbol .escaped b =
      if b = escDelim then .eDelim else if b = escEsc then .eEsc else .eBad b := rfl

theorem decodeSymbol_recovering (b : Byte) :
    decodeSymbol .recovering b = if b = delim then .rEnd else .rSkip b := rfl

theorem decodeSymbol_wf (cfg : Config) (m : FState) (b : Byte) : (decodeSymbol m b).wf cfg = true := by
  cases m with
  | normal =>
    rw [decodeSymbol_normal]
    split_ifs with hd he
    · rfl
    · rfl
    · exact decide_eq_true ⟨hd, he⟩
  | escaped =>
    rw [decodeSymbol_escaped]
    split_ifs with hd he
    · rfl
    · rfl
    · exact decide_eq_true ⟨hd, he⟩
  | recovering =>
    rw [decodeSymbol_recovering]
    split_ifs with hd
    · rfl
    · exact decide_eq_true hd

theorem encode_decodeSymbol (cfg : Config) (m : FState) (b : Byte) :
    encode cfg (decodeSymbol m b) = .symbol m b := by
  cases m with
  | normal => rw [decodeSymbol_normal]; split_ifs <;> simp [encode, *]
  | escaped => rw [decodeSymbol_escaped]; split_ifs <;> simp [encode, *]
  | recovering => rw [decodeSymbol_recovering]; split_ifs <;> simp [encode, *]

theorem decodeSymbol_of_encode {cfg : Config} {i : Instr} {m : FState} {b : Byte}
    (hwf : i.wf cfg = true) (h : encode cfg i = .symbol m b) : decodeSymbol m b = i := by
  cases i <;> simp only [encode, Code.symbol.injEq, reduceCtorEq] at h <;> obtain ⟨rfl, rfl⟩ := h
  case nEnd => rfl
  case nEsc => rfl
  case nData b =>
    obtain ⟨hd, he⟩ := of_decide_eq_true hwf
    simp [decodeSymbol, hd, he]
  case eDelim => rfl
  case eEsc => rfl
  case eBad b =>
    obtain ⟨hd, he⟩ := of_decide_eq_true hwf
    simp [decodeSymbol, hd, he]
  case rEnd => rfl
  case rSkip b =>
    have hd : b ≠ delim := of_decide_eq_true hwf
    simp [decodeSymbol, hd]

/-! ### The opcode selects the family (rules R50, R80) -/

section
variable (cfg : Config) (rest : List Byte)

theorem decodeFrame_rectangle : decodeFrame cfg (opRectangle :: rest) = decodeRect cfg rest := rfl
theorem decodeFrame_text : decodeFrame cfg (opText :: rest) = decodeText rest := rfl
theorem decodeFrame_waveform : decodeFrame cfg (opWaveform :: rest) = decodeWave rest := rfl
theorem decodeFrame_joypad : decodeFrame cfg (opJoypad :: rest) = decodeJpad rest := rfl
theorem decodeFrame_system : decodeFrame cfg (opSystem :: rest) = decodeSys cfg rest := rfl

theorem decodeFrame_unassigned {op : Byte} (h : ¬ assigned op) :
    decodeFrame cfg (op :: rest) = .unknown op rest := by
  simp only [assigned, not_or] at h
  obtain ⟨hr, ht, hw, hj, hs⟩ := h
  simp [decodeFrame, hr, ht, hw, hj, hs]

end

/-! ### A rejected length decodes to the rejection (rules R93, R96, R101, R106, R111) -/

section
variable {cfg : Config} {rest : List Byte}

theorem decodeRect_of_length
    (h : 1 + rest.length ≠ 5 ∧ 1 + rest.length ≠ 9 ∧ 1 + rest.length ≠ 12) :
    decodeRect cfg rest = .rectBad rest := by
  unfold decodeRect
  split
  · simp at h
  · simp at h
  · simp at h
  · rfl

theorem decodeText_of_length (h : 1 + rest.length ≠ 12) : decodeText rest = .textBad rest := by
  unfold decodeText
  split
  · simp at h
  · rfl

theorem decodeWave_of_length (h : 1 + rest.length < 4 ∨ 4 + waveMax < 1 + rest.length) :
    decodeWave rest = .waveBad rest := by
  unfold decodeWave
  split
  · next samples =>
    simp only [List.length_cons] at h
    exact if_neg (by omega)
  · rfl

theorem decodeJpad_of_length (h : 1 + rest.length ≠ 3) : decodeJpad rest = .jpadBad rest := by
  unfold decodeJpad
  split
  · simp at h
  · rfl

theorem decodeSys_of_length (h : 1 + rest.length < cfg.sysLen) :
    decodeSys cfg rest = .sysShort rest := by
  unfold decodeSys
  split
  · next tail =>
    simp only [List.length_cons] at h
    exact if_neg (by omega)
  · rfl

theorem decodeRect_rect9 (x y : Half) (r g b pad : Byte) :
    decodeRect cfg (lowByte x :: highByte x :: lowByte y :: highByte y ::
      rect9Tail cfg.rect9RgbBase r g b pad) = .rect9 x y r g b pad := by
  cases hbase : cfg.rect9RgbBase <;> simp [rect9Tail, decodeRect, hbase]

end

theorem decodeFrame_of_encode {cfg : Config} {i : Instr} {p : List Byte} (hwf : i.wf cfg = true)
    (h : encode cfg i = .frame p) : decodeFrame cfg p = i := by
  cases i <;> simp only [encode, Code.frame.injEq, reduceCtorEq] at h <;> subst h
  case rect12 => simp [decodeFrame_rectangle, decodeRect]
  case rect9 => exact decodeRect_rect9 ..
  case rect5 => simp [decodeFrame_rectangle, decodeRect]
  case rectBad => exact decodeRect_of_length (of_decide_eq_true hwf).2
  case text12 => simp [decodeFrame_text, decodeText]
  case textBad => exact decodeText_of_length (of_decide_eq_true hwf).2
  case wave => exact if_pos (of_decide_eq_true hwf)
  case waveBad => exact decodeWave_of_length (of_decide_eq_true hwf).2
  case jpad3 => rfl
  case jpadBad => exact decodeJpad_of_length (of_decide_eq_true hwf).2
  case sys => exact if_pos (of_decide_eq_true hwf).2
  case sysShort => exact decodeSys_of_length (of_decide_eq_true hwf).2
  case empty => rfl
  case unknown => exact decodeFrame_unassigned _ _ (of_decide_eq_true hwf).2

/-! ### Encoding what a frame decodes to -/

section
variable (cfg : Config) (rest : List Byte)

theorem encode_decodeRect : encode cfg (decodeRect cfg rest) = .frame (opRectangle :: rest) := by
  unfold decodeRect
  split
  · simp [encode]
  · split
    · next hbase => simp [encode, rect9Tail, hbase]
    · next hbase => simp [encode, rect9Tail, hbase]
  · simp [encode]
  · rfl

theorem encode_decodeText : encode cfg (decodeText rest) = .frame (opText :: rest) := by
  unfold decodeText
  split
  · simp [encode]
  · rfl

theorem encode_decodeWave : encode cfg (decodeWave rest) = .frame (opWaveform :: rest) := by
  unfold decodeWave
  split
  · split <;> rfl
  · rfl

theorem encode_decodeJpad : encode cfg (decodeJpad rest) = .frame (opJoypad :: rest) := by
  unfold decodeJpad
  split <;> rfl

theorem encode_decodeSys : encode cfg (decodeSys cfg rest) = .frame (opSystem :: rest) := by
  unfold decodeSys
  split
  · split <;> rfl
  · rfl

theorem encode_decodeFrame (p : List Byte) : encode cfg (decodeFrame cfg p) = .frame p := by
  cases p with
  | nil => rfl
  | cons op rest =>
    simp only [decodeFrame]
    split_ifs with hr ht hw hj hs
    · rw [hr, encode_decodeRect]
    · rw [ht, encode_decodeText]
    · rw [hw, encode_decodeWave]
    · rw [hj, encode_decodeJpad]
    · rw [hs, encode_decodeSys]
    · rfl

end

/-! ### Both levels -/

theorem decode_frame_of_le (cfg : Config) {p : List Byte} (h : p.length ≤ cap) :
    decode cfg (.frame p) = .ok (decodeFrame cfg p) := if_pos h

theorem decode_frame_of_lt (cfg : Config) {p : List Byte} (h : cap < p.length) :
    decode cfg (.frame p) = .error (.frameTooLong p.length) := if_neg (Nat.not_le_of_lt h)

theorem instr_level : ∀ i : Instr, Laws.Level.Statement i
  | .nEnd => Laws.Level.nEnd
  | .nEsc => Laws.Level.nEsc
  | .nData b => Laws.Level.nData b
  | .eDelim => Laws.Level.eDelim
  | .eEsc => Laws.Level.eEsc
  | .eBad b => Laws.Level.eBad b
  | .rEnd => Laws.Level.rEnd
  | .rSkip b => Laws.Level.rSkip b
  | .rect12 x y w h r g b => Laws.Level.rect12 x y w h r g b
  | .rect9 x y r g b pad => Laws.Level.rect9 x y r g b pad
  | .rect5 x y => Laws.Level.rect5 x y
  | .rectBad rest => Laws.Level.rectBad rest
  | .text12 c x y r g b t0 t1 t2 => Laws.Level.text12 c x y r g b t0 t1 t2
  | .textBad rest => Laws.Level.textBad rest
  | .wave p1 p2 p3 samples => Laws.Level.wave p1 p2 p3 samples
  | .waveBad rest => Laws.Level.waveBad rest
  | .jpad3 j0 j1 => Laws.Level.jpad3 j0 j1
  | .jpadBad rest => Laws.Level.jpadBad rest
  | .sys a1 a2 a3 a4 f tail => Laws.Level.sys a1 a2 a3 a4 f tail
  | .sysShort rest => Laws.Level.sysShort rest
  | .empty => Laws.Level.empty
  | .unknown op rest => Laws.Level.unknown op rest

/-- The frame of a well-formed command fits the accumulation buffer (rule R49). -/
theorem encode_length_le {cfg : Config} {i : Instr} {p : List Byte} (hwf : i.wf cfg = true)
    (h : encode cfg i = .frame p) : p.length ≤ cap := by
  have hlevel := instr_level i cfg hwf
  rw [h] at hlevel
  exact hlevel.2

/-- Settles O12: the branches of the symbol decoder, in each mode. -/
theorem symbolTableIsTheSpecs : Obligations.SymbolTableIsTheSpecs := by
  intro m b
  cases m with
  | normal =>
    rw [decodeSymbol_normal]
    split_ifs with hd he
    · simp [hd, delim]
    · simp [he, esc]
    · simp only [delim, esc] at hd he
      simp_all
  | escaped =>
    rw [decodeSymbol_escaped]
    split_ifs with hd he
    · simp [hd, escDelim]
    · simp [he, escEsc]
    · simp only [escDelim, escEsc] at hd he
      simp_all
  | recovering =>
    rw [decodeSymbol_recovering]
    split_ifs with hd
    · simp [hd, delim]
    · simp only [delim] at hd
      simp_all

/-- Settles O16: the buffer's capacity is 512. -/
theorem framesDecodeUpToCapacity : Obligations.FramesDecodeUpToCapacity := fun cfg _ =>
  ⟨decode_frame_of_le cfg, decode_frame_of_lt cfg⟩

/-- Settles O14: at each level the decoder inverts the encoder. -/
theorem decodeOfEncodeIsTheInstruction : Obligations.DecodeOfEncodeIsTheInstruction := by
  intro cfg i hwf
  cases h : encode cfg i with
  | symbol m b => exact congrArg Except.ok (decodeSymbol_of_encode hwf h)
  | frame p =>
    rw [decode_frame_of_le cfg (encode_length_le hwf h), decodeFrame_of_encode hwf h]

/-- Settles O15: at each level what decodes is well-formed, and the encoder inverts the decoder. -/
theorem encodeOfDecodeIsTheCode : Obligations.EncodeOfDecodeIsTheCode := by
  intro cfg c i h
  cases c with
  | symbol m b =>
    cases h
    exact ⟨decodeSymbol_wf cfg m b, encode_decodeSymbol cfg m b⟩
  | frame p =>
    rcases Nat.lt_or_ge cap p.length with hlt | hle
    · rw [decode_frame_of_lt cfg hlt] at h
      cases h
    · rw [decode_frame_of_le cfg hle] at h
      cases h
      exact ⟨decodeFrame_wf cfg hle, encode_decodeFrame cfg p⟩

end Sys2Proof
end

section
/-! PROOFS. The stuffing rule (rule R47): what a stuffed payload contains, and how it is read back. -/

namespace Sys2Proof

/-! ### One byte -/

theorem stuffByte_delim : stuffByte delim = [esc, escDelim] := rfl

theorem stuffByte_esc : stuffByte esc = [esc, escEsc] := rfl

theorem stuffByte_of_ne {v : Byte} (hd : v ≠ delim) (he : v ≠ esc) : stuffByte v = [v] := by
  simp [stuffByte, hd, he]

/-- The three cases of the stuffing rule. -/
theorem stuffByte_cases (v : Byte) :
    (v = delim ∧ stuffByte v = [esc, escDelim]) ∨ (v = esc ∧ stuffByte v = [esc, escEsc]) ∨
      (v ≠ delim ∧ v ≠ esc ∧ stuffByte v = [v]) := by
  by_cases hd : v = delim
  · exact .inl ⟨hd, hd ▸ stuffByte_delim⟩
  · by_cases he : v = esc
    · exact .inr (.inl ⟨he, he ▸ stuffByte_esc⟩)
    · exact .inr (.inr ⟨hd, he, stuffByte_of_ne hd he⟩)

theorem stuff_singleton (v : Byte) : stuff [v] = stuffByte v := List.append_nil _

theorem delim_notMem_stuffByte (v : Byte) : delim ∉ stuffByte v := by
  rcases stuffByte_cases v with ⟨-, h⟩ | ⟨-, h⟩ | ⟨hd, -, h⟩ <;> rw [h]
  · decide
  · decide
  · simpa using hd.symm

theorem tail_of_pair_split {a b c : Byte} {before after : List Byte}
    (h : [a, b] = before ++ c :: after) (hb : b ≠ c) : after = [b] := by
  match before with
  | [] => exact (List.cons.inj h).2.symm
  | [_] => exact absurd (List.cons.inj (List.cons.inj h).2).1 hb
  | _ :: _ :: _ => simp at h

/-- In the code of one byte the escape marker is followed by exactly one byte, an escape code. -/
theorem stuffByte_esc_split {v : Byte} {before after : List Byte}
    (h : stuffByte v = before ++ esc :: after) : after = [escDelim] ∨ after = [escEsc] := by
  rcases stuffByte_cases v with ⟨-, hv⟩ | ⟨-, hv⟩ | ⟨-, he, hv⟩ <;> rw [hv] at h
  · exact .inl (tail_of_pair_split h (by decide))
  · exact .inr (tail_of_pair_split h (by decide))
  · have hmem : esc ∈ [v] := h ▸ List.mem_append_right _ List.mem_cons_self
    exact absurd (List.mem_singleton.mp hmem).symm he

/-! ### A payload -/

theorem delim_notMem_stuff (p : List Byte) : delim ∉ stuff p := by
  induction p with
  | nil => exact List.not_mem_nil
  | cons v p ih =>
    rw [stuff, List.mem_append, not_or]
    exact ⟨delim_notMem_stuffByte v, ih⟩

/-- Wherever a stuffed payload holds the escape marker, an escape code comes next. -/
theorem stuff_esc_split {p before after : List Byte} (h : stuff p = before ++ esc :: after) :
    ∃ c rest, after = c :: rest ∧ (c = escDelim ∨ c = escEsc) := by
  induction p generalizing before with
  | nil => simp [stuff] at h
  | cons v p ih =>
    rcases List.append_eq_append_iff.mp h with ⟨rest, -, hrest⟩ | ⟨inside, hv, hrest⟩
    · exact ih hrest
    · cases inside with
      | nil => exact ih (before := []) hrest.symm
      | cons e inside =>
        obtain ⟨rfl, rfl⟩ := List.cons.inj hrest
        rcases stuffByte_esc_split hv with rfl | rfl
        · exact ⟨_, _, rfl, .inl rfl⟩
        · exact ⟨_, _, rfl, .inr rfl⟩

/-- Settles O17: byte by byte, by induction on the payload. -/
theorem stuffedPayloadHasNoDelimiter : Obligations.StuffedPayloadHasNoDelimiter := by
  refine ⟨rfl, rfl, fun v hd he => ?_, stuff_append, fun p => rfl, fun p =>
    ⟨delim_notMem_stuff p, fun before after => stuff_esc_split⟩⟩
  rw [stuff_singleton, stuffByte_of_ne hd he]

end Sys2Proof
end

section
/-! PROOFS. Stuffing read back by the block (rule R59) and the round trip of a stream (property S1). -/

namespace Sys2Proof.Machine

variable {s t u m : State}

/-! ### A byte sequence -/

@[simp] theorem andThen_of_next (s : State) (f : State → Host.Outcome State Fault Refusal) :
    andThen (.next s) f = f s := rfl

theorem process_singleton (b : Byte) (s : State) : process [b] s = stepByte b s := by
  rw [process_cons]
  cases stepByte b s <;> rfl

theorem process_append (xs ys : List Byte) (s : State) :
    process (xs ++ ys) s = andThen (process xs s) (process ys) := by
  induction xs generalizing s with
  | nil => rfl
  | cons b xs ih =>
    rw [List.cons_append, process_cons, process_cons]
    cases stepByte b s with
    | next t => exact ih t
    | fault r => rfl
    | refused r => rfl

theorem process_append_of_next {xs ys : List Byte} (h : process xs s = .next m) :
    process (xs ++ ys) s = process ys m := by
  rw [process_append, h, andThen_of_next]

/-! ### One stuffed byte is one append (rules R62 to R65) -/

theorem append_setFstate (v : Byte) (f : FState) (s : State) :
    append v (s.setFstate f) = append v s := rfl

theorem stepByte_esc (h : s.fstate = .normal) : stepByte esc s = .next (s.setFstate .escaped) := by
  rw [stepByte, h]
  rfl

theorem stepByte_data {b : Byte} (h : s.fstate = .normal) (hd : b ≠ delim) (he : b ≠ esc) :
    stepByte b s = .next (append b s) := by
  rw [stepByte, h, decodeSymbol_normal, if_neg hd, if_neg he]
  rfl

theorem stepByte_delim (h : s.fstate = .normal) (hw : s.wr ≤ cap) :
    stepByte delim s = .next s.dispatch := by
  rw [stepByte, h]
  exact execNEnd_of_le hw

theorem process_esc (b : Byte) (h : s.fstate = .normal) :
    process [esc, b] s = stepByte b (s.setFstate .escaped) := by
  rw [process_cons, stepByte_esc h, andThen_of_next, process_singleton]

theorem process_stuffByte (v : Byte) (h : s.fstate = .normal) :
    process (stuffByte v) s = .next (append v s) := by
  rcases stuffByte_cases v with ⟨rfl, hv⟩ | ⟨rfl, hv⟩ | ⟨hd, he, hv⟩ <;> rw [hv]
  · rw [process_esc _ h, ← append_setFstate delim .escaped s]
    rfl
  · rw [process_esc _ h, ← append_setFstate esc .escaped s]
    rfl
  · rw [process_singleton, stepByte_data h hd he]

/-! ### A stuffed payload is buffered -/

theorem memReadBlock_snoc (s : State) (a n : Nat) :
    memReadBlock s a (n + 1) = memReadBlock s a n ++ [memRead1 s (a + n)] := by
  simp [memReadBlock, List.range_succ]

/-- One more byte stored at the cursor is one more byte of the frame. -/
theorem frame_snoc {v : Byte} (hbuf : t.buf = Memory.write s.buf s.wr v) (hwr : t.wr = s.wr + 1) :
    t.frame = s.frame ++ [v] := by
  have hbelow : memReadBlock t 0 s.wr = s.frame :=
    State.frame_congr (s := t.setWr s.wr) rfl fun a ha => by
      have hne : a ≠ s.wr := Nat.ne_of_lt ha
      rw [State.setWr_buf, hbuf, Memory.read_write_other _ _ hne]
  have hlast : memRead1 t s.wr = v := by rw [memRead1, hbuf, Memory.read_write_same]
  rw [State.frame, hwr, memReadBlock_snoc, hbelow, Nat.zero_add, hlast]

theorem append_frame (v : Byte) (h : s.wr < cap) : (append v s).frame = s.frame ++ [v] := by
  rw [append_of_lt v h]
  exact frame_snoc rfl rfl

/-- From `s` to `m` the bytes `p` are buffered, in Normal, and nothing else happens that an output or a
parameter shows. -/
structure Buffers (p : List Byte) (s m : State) : Prop where
  fstate : m.fstate = .normal
  frame : m.frame = s.frame ++ p
  lc : m.lc = s.lc
  trace : m.trace = s.trace
  outside : SameOutside s m

theorem Buffers.wr_eq {p : List Byte} (h : Buffers p s m) : m.wr = s.wr + p.length := by
  simpa using congrArg List.length h.frame

theorem buffers_nil (h : s.fstate = .normal) : Buffers [] s s where
  fstate := h
  frame := (List.append_nil _).symm
  lc := rfl
  trace := rfl
  outside := ⟨rfl, rfl⟩

theorem buffers_cons {v : Byte} {p : List Byte} (hw : s.wr < cap) (h : Buffers p (append v s) m) :
    Buffers (v :: p) s m where
  fstate := h.fstate
  frame := by rw [h.frame, append_frame v hw, List.append_assoc, List.singleton_append]
  lc := by rw [h.lc, append_of_lt v hw]; rfl
  trace := by rw [h.trace, append_of_lt v hw]; rfl
  outside := by
    have hout := h.outside
    rw [append_of_lt v hw] at hout
    exact ⟨hout.params, hout.pending⟩

theorem process_stuff (p : List Byte) (h : s.fstate = .normal) (hw : s.wr + p.length ≤ cap) :
    ∃ m, process (stuff p) s = .next m ∧ Buffers p s m := by
  induction p generalizing s with
  | nil => exact ⟨s, rfl, buffers_nil h⟩
  | cons v p ih =>
    rw [List.length_cons] at hw
    have hlt : s.wr < cap := by omega
    have hwr : (append v s).wr = s.wr + 1 := by rw [append_of_lt v hlt]; rfl
    have hnormal : (append v s).fstate = .normal := by rw [append_of_lt v hlt]; rfl
    obtain ⟨m, hm, hbuf⟩ := ih hnormal (by omega)
    exact ⟨m, (process_append_of_next (process_stuffByte v h)).trans hm, buffers_cons hlt hbuf⟩

theorem frame_of_wr_zero (h : s.wr = 0) : s.frame = [] := by
  rw [State.frame, h, memReadBlock_zero]

/-! ### A frame on the wire is its command -/

/-- The same events, Last Color and parameters: the two states may differ in mode, buffer and moves. -/
structure SameOutput (s t : State) : Prop where
  trace : s.trace = t.trace
  lc : s.lc = t.lc
  params : s.params = t.params

theorem SameOutput.trans (h : SameOutput s t) (h' : SameOutput t u) : SameOutput s u :=
  ⟨h.trace.trans h'.trace, h.lc.trans h'.lc, h.params.trans h'.params⟩

theorem SameOutside.trans (h : SameOutside s t) (h' : SameOutside t u) : SameOutside s u :=
  ⟨h'.params.trans h.params, h'.pending.trans h.pending⟩

/-- What a command does to the output depends on the output alone (rule R86). -/
theorem SameOutput.afterFrame (h : SameOutput s t) (i : Instr) :
    SameOutput (s.afterFrame i) (t.afterFrame i) where
  trace := by simp [h.trace, h.lc]
  lc := by simp [h.lc]
  params := h.params

/-- The run from `s` to `t` ends in (Normal, 0) with the output of `u`. -/
structure EndsLike (u s t : State) : Prop where
  fstate : t.fstate = .normal
  wr : t.wr = 0
  output : SameOutput t u
  outside : SameOutside s t

theorem Buffers.dispatch_endsLike {p : List Byte} (h : Buffers p s m) (hw : s.wr = 0) :
    EndsLike (s.afterFrame (decodeFrame s.params p)) s m.dispatch := by
  have hcommand : m.command = decodeFrame s.params p := by
    rw [State.command, h.outside.params, h.frame, frame_of_wr_zero hw, List.nil_append]
  exact {
    fstate := rfl
    wr := rfl
    output := ⟨by simp [hcommand, h.trace, h.lc], by simp [hcommand, h.lc], h.outside.params⟩
    outside := ⟨h.outside.params, h.outside.pending⟩ }

theorem process_wireFrame {p : List Byte} (hp : p.length ≤ cap) (h : s.fstate = .normal)
    (hw : s.wr = 0) : ∃ t, process (wireFrame p) s = .next t ∧
      EndsLike (s.afterFrame (decodeFrame s.params p)) s t := by
  obtain ⟨m, hm, hbuf⟩ := process_stuff p h (by omega)
  have hle : m.wr ≤ cap := by rw [hbuf.wr_eq]; omega
  refine ⟨m.dispatch, ?_, hbuf.dispatch_endsLike hw⟩
  calc process (wireFrame p) s
    _ = process [delim] m := process_append_of_next hm
    _ = stepByte delim m := process_singleton delim m
    _ = .next m.dispatch := stepByte_delim hbuf.fstate hle

/-- A command's events hold no diagnostic but those of a frame. -/
theorem diag_notMem_events {i : Instr} {c : Color} {d : Diag} (hd : ¬ d.OfFrame) :
    .diag d ∉ (i.event c).toList := fun h => hd (event_diag_ofFrame (Option.mem_toList.mp h))

/-- Settles O18: the payload is buffered byte by byte, and the delimiter dispatches it. -/
theorem destuffingInvertsStuffing : Obligations.DestuffingInvertsStuffing := by
  intro p s hp h hw
  constructor
  · obtain ⟨m, hm, hbuf⟩ := process_stuff p h (by rw [cap_eq]; omega)
    exact ⟨m, hm, hbuf.fstate, by rw [hbuf.frame, frame_of_wr_zero hw, List.nil_append], hbuf.trace⟩
  · obtain ⟨t, ht, hend⟩ := process_wireFrame hp h hw
    exact ⟨t, _, _, ht, exec_frame (decodeFrame_isFrame _ _) s, hend.fstate, hend.wr,
      hend.output.trace, hend.output.lc, hend.outside, hend.output.trace,
      diag_notMem_events (by simp [Diag.OfFrame]), diag_notMem_events (by simp [Diag.OfFrame]),
      diag_notMem_events (by simp [Diag.OfFrame])⟩

/-! ### A stream is its frames -/

theorem runPayloads_cons (p : List Byte) (ps : List (List Byte)) (u : State) :
    runPayloads (p :: ps) u = runPayloads ps (u.afterFrame (decodeFrame u.params p)) := by
  rw [runPayloads, exec_frame (decodeFrame_isFrame _ _), andThen_of_next]

/-- The direct run starts from any state with the same output, since the frames before left the block
and the direct run with different buffers. -/
theorem process_wireStream (ps : List (List Byte)) (hps : ∀ p ∈ ps, p.length ≤ cap)
    (h : s.fstate = .normal) (hw : s.wr = 0) (hsu : SameOutput s u) :
    ∃ t v, process (wireStream ps) s = .next t ∧ runPayloads ps u = .next v ∧ EndsLike v s t := by
  induction ps generalizing s u with
  | nil => exact ⟨s, u, rfl, rfl, h, hw, hsu, rfl, rfl⟩
  | cons p ps ih =>
    obtain ⟨hp, hrest⟩ := List.forall_mem_cons.mp hps
    obtain ⟨m, hm, hend⟩ := process_wireFrame hp h hw
    have hmu : SameOutput m (u.afterFrame (decodeFrame u.params p)) := by
      rw [← hsu.params]
      exact hend.output.trans (hsu.afterFrame _)
    obtain ⟨t, v, ht, hv, htv⟩ := ih hrest hend.fstate hend.wr hmu
    refine ⟨t, v, (process_append_of_next hm).trans ht, (runPayloads_cons p ps u).trans hv, ?_⟩
    exact { htv with outside := hend.outside.trans htv.outside }

/-- Settles O19, by induction on the frames. -/
theorem streamsRunAsTheirFrames : Obligations.StreamsRunAsTheirFrames := by
  intro ps s hps h hw
  obtain ⟨t, u, ht, hu, hend⟩ := process_wireStream ps hps h hw ⟨rfl, rfl, rfl⟩
  exact ⟨t, u, ht, hu, hend.fstate, hend.wr, hend.output.trace, hend.output.lc, hend.outside⟩

end Sys2Proof.Machine
end

section
/-! PROOFS. The eight stream symbols (rules R61 to R68, R70, R71): which byte selects each, and what
each changes and leaves. -/

namespace Sys2Proof

/-! ### The bytes that select a symbol (rule R48) -/

theorem decodeSymbol_nData {b : Byte} (hd : b ≠ delim) (he : b ≠ esc) :
    decodeSymbol .normal b = .nData b := by
  rw [decodeSymbol_normal, if_neg hd, if_neg he]

theorem decodeSymbol_eBad {b : Byte} (hd : b ≠ escDelim) (he : b ≠ escEsc) :
    decodeSymbol .escaped b = .eBad b := by
  rw [decodeSymbol_escaped, if_neg hd, if_neg he]

theorem decodeSymbol_rSkip {b : Byte} (hd : b ≠ delim) : decodeSymbol .recovering b = .rSkip b := by
  rw [decodeSymbol_recovering, if_neg hd]

end Sys2Proof

namespace Sys2Proof.Machine

/-! ### Frames of the operations -/

theorem sameBytes_of_buf_eq {s t : State} (h : t.buf = s.buf) : SameBytes s t := fun a => by
  rw [memRead1, memRead1, h]

theorem append_appends {s : State} (v : Byte) (h : s.wr < cap) : Appends v s (append v s) := by
  rw [append_of_lt v h]
  exact {
    fstate := rfl
    wr := rfl
    stored := Memory.read_write_same s.buf s.wr v
    others := fun _ ha => Memory.read_write_other s.buf v ha
    lc := rfl
    trace := rfl
    outside := ⟨rfl, rfl⟩ }

/-- A cause that clears and selects `f` (rule R122) changes nothing but this and the trace. -/
theorem raise_reportsAndClears {d : Diag} {f : FState} {s : State}
    (hf : (raise d s).fstate = f) (hw : (raise d s).wr = 0) :
    ReportsAndClears d f s (raise d s) where
  trace := raise_trace d s
  fstate := hf
  wr := hw
  bytes := sameBytes_of_buf_eq (raise_buf d s)
  lc := raise_lc d s
  outside := ⟨raise_params d s, raise_pending d s⟩

theorem append_overruns {s : State} (v : Byte) (h : ¬ s.wr < cap) :
    ReportsAndClears .overrun .recovering s (append v s) := by
  rw [append_of_full v h]
  exact raise_reportsAndClears rfl rfl

theorem framingViolation_reportsAndClears (s : State) :
    ReportsAndClears .framingViolation .recovering s (raise .framingViolation s) :=
  raise_reportsAndClears rfl rfl

/-! ### A byte after the escape marker -/

theorem stepByte_escapeCode {b : Byte} {s : State} (hf : s.fstate = .escaped)
    (hb : b = escDelim ∨ b = escEsc) : ∃ v, stepByte b s = .next (append v s) := by
  rw [stepByte, hf]
  rcases hb with rfl | rfl
  · exact ⟨delim, rfl⟩
  · exact ⟨esc, rfl⟩

theorem stepByte_badEscape {b : Byte} {s : State} (hf : s.fstate = .escaped) (hd : b ≠ escDelim)
    (he : b ≠ escEsc) : stepByte b s = .next (raise .framingViolation s) := by
  rw [stepByte, hf, decodeSymbol_eBad hd he]
  rfl

/-! ### The statements -/

/-- Settles O20: `N.END` goes on to `State.dispatch`, the clear of the state after the command. -/
theorem nEndDispatchesThenClears : Obligations.NEndDispatchesThenClears := by
  refine ⟨rfl, fun s hw => ⟨s.dispatch, s.afterFrame s.command, ?_, ?_, rfl, rfl, rfl, rfl,
    sameBytes_of_buf_eq rfl, rfl, rfl⟩⟩
  · exact (exec_nEnd s).trans (execNEnd_of_le hw)
  · exact exec_frame (decodeFrame_isFrame _ _) s

/-- Settles O23: all three symbols are the append of their byte. -/
theorem appendingSymbolsStoreOrOverrun : Obligations.AppendingSymbolsStoreOrOverrun := by
  refine ⟨fun _ => decodeSymbol_nData, rfl, rfl, fun s b => ⟨fun hw => ?_, fun hw => ?_⟩⟩
  · exact ⟨⟨_, rfl, append_appends b hw⟩, ⟨_, rfl, append_appends delim hw⟩,
      ⟨_, rfl, append_appends esc hw⟩⟩
  · have hfull : ¬ s.wr < cap := Nat.not_lt_of_le hw
    exact ⟨⟨_, rfl, append_overruns b hfull⟩, ⟨_, rfl, append_overruns delim hfull⟩,
      ⟨_, rfl, append_overruns esc hfull⟩⟩

/-- Settles O22: `N.ESC` is one register write. -/
theorem nEscWritesFstateOnly : Obligations.NEscWritesFstateOnly :=
  ⟨rfl, fun s => ⟨s.setFstate .escaped, rfl, rfl, rfl, rfl, rfl, sameBytes_of_buf_eq rfl, rfl, rfl⟩⟩

/-- Settles O24: `E.BAD` raises the cause FRAMING_VIOLATION. -/
theorem badEscapeEntersRecovering : Obligations.BadEscapeEntersRecovering :=
  ⟨fun _ => decodeSymbol_eBad, fun _ s => ⟨_, rfl, framingViolation_reportsAndClears s⟩⟩

/-- Settles O25: an escape code is an append, which a full buffer refuses; any other byte is
`E.BAD`. -/
theorem escapedFullBufferByteDecides : Obligations.EscapedFullBufferByteDecides := by
  intro b s hf hw
  by_cases hb : b = 0xDC ∨ b = 0xDD
  · obtain ⟨v, hv⟩ := stepByte_escapeCode hf hb
    have hfull : ¬ s.wr < cap := by rw [hw, cap_eq]; exact Nat.lt_irrefl _
    exact ⟨_, hv, by rw [if_pos hb]; exact append_overruns v hfull⟩
  · obtain ⟨hd, he⟩ := not_or.mp hb
    exact ⟨_, stepByte_badEscape hf hd he, by
      rw [if_neg hb]; exact framingViolation_reportsAndClears s⟩

/-- Settles O26: `R.END` is the return from a fault, the cause RECOVERED. -/
theorem rEndReportsRecovery : Obligations.REndReportsRecovery :=
  ⟨rfl, fun _ => ⟨_, rfl, raise_reportsAndClears rfl rfl⟩⟩

/-- Settles O27: the meaning of `R.SKIP` is the state it is given. -/
theorem rSkipChangesNothing : Obligations.RSkipChangesNothing :=
  ⟨fun _ => decodeSymbol_rSkip, fun _ _ => rfl⟩

end Sys2Proof.Machine
end

section
/-! PROOFS. The soft reset (rule R74), and a recovered block compared with a reset one (rule R77). -/

namespace Sys2Proof.Machine

@[simp] theorem softReset_pending (s : State) : (softReset s).pending = s.pending := by
  unfold softReset; split <;> rfl

theorem softReset_lc (s : State) : (softReset s).lc =
    if s.params.softResetClearsColor then s.params.lastColorReset else s.lc := by
  unfold softReset; split <;> rfl

theorem softReset_idem (s : State) : softReset (softReset s) = softReset s := by
  cases hc : s.params.softResetClearsColor with
  | true =>
    rw [softReset_clears hc]
    exact softReset_clears hc
  | false =>
    rw [softReset_keeps hc]
    exact softReset_keeps hc

/-- Settles O2: field by field, and taken again by `softReset_idem`. -/
theorem softResetReturnsToNormalSilently : Obligations.SoftResetReturnsToNormalSilently := fun s =>
  ⟨softReset s, rfl, softReset_fstate s, softReset_wr s, softReset_lc s, softReset_trace s,
    sameBytes_of_buf_eq (softReset_buf s), ⟨softReset_params s, softReset_pending s⟩,
    congrArg Host.Outcome.next (softReset_idem s)⟩

theorem stepByte_delim_recovering {s : State} (hf : s.fstate = .recovering) :
    stepByte delim s = .next (recover s) := by
  rw [stepByte, hf]
  rfl

/-- Last Color apart, recovery is a soft reset that reports itself: `WR` is 0, so that every cell is
stale. -/
theorem recover_sameButStale_softReset (s : State) (c : Color) : SameButStale ((recover s).setLc c)
    (((softReset s).emit (.diag .recovered)).setLc c) where
  fstate := by simp [recover_eq]
  wr := by simp [recover_eq]
  live := fun _ ha => absurd ha (Nat.not_lt_zero _)
  lc := rfl
  trace := by simp [recover_eq]
  params := by simp [recover_eq]
  pending := by simp [recover_eq]

/-- Settles O29: where Last Color is the reset colour, the soft reset keeps it too. -/
theorem recoveredBlockIsAsFreshlyReset : Obligations.RecoveredBlockIsAsFreshlyReset := by
  intro s hf
  refine ⟨recover s, stepByte_delim_recovering hf, rfl, recover_sameButStale_softReset s, fun hlc => ?_⟩
  have hreset : (softReset s).lc = s.lc := by rw [softReset_lc, ← hlc, ite_self]
  exact { recover_sameButStale_softReset s s.lc with lc := hreset.symm }

end Sys2Proof.Machine
end

section
/-! PROOFS. Bytes in sequence: the event of a byte (rule R75), where delimiters leave the block (rule
R76), and `process` against the steps of the machine (rules R72, R73). -/

namespace Sys2Proof

/-- The mode after a delimiter, by the mode before it. -/
def FState.afterDelim : FState → FState
  | .normal => .normal
  | .escaped => .recovering
  | .recovering => .normal

theorem FState.afterDelim_of_ne_escaped {f : FState} (h : f ≠ .escaped) : f.afterDelim = .normal := by
  cases f with
  | normal => rfl
  | escaped => exact absurd rfl h
  | recovering => rfl

theorem FState.afterDelim_ne_escaped (f : FState) : f.afterDelim ≠ .escaped := by
  cases f <;> decide

end Sys2Proof

namespace Sys2Proof.Machine

/-- Settles O7, by the things a byte can emit. -/
theorem byteEmitsAtMostOneEvent : Obligations.ByteEmitsAtMostOneEvent := by
  intro b s t h
  cases (byteStep_of_next h).emits with
  | silent ht => exact .inl ht
  | command e ht he hd hf hw => exact .inr ⟨e, ht⟩
  | dropped d ht hframe hd hf hw => exact .inr ⟨_, ht⟩
  | notice d ht hd => exact .inr ⟨_, ht⟩

/-- Settles O9: `process_append`, an induction on the first chunk. -/
theorem chunkBoundariesDoNotMatter : Obligations.ChunkBoundariesDoNotMatter := process_append

/-! ### Where a delimiter leaves the block -/

theorem stepByte_delim_goesOn {s : State} (hw : s.wr ≤ cap) :
    ∃ t, stepByte delim s = .next t ∧ t.wr = 0 ∧ t.fstate = s.fstate.afterDelim := by
  cases hf : s.fstate with
  | normal => exact ⟨_, stepByte_delim hf hw, rfl, rfl⟩
  | escaped => exact ⟨_, stepByte_badEscape hf (by decide) (by decide), rfl, rfl⟩
  | recovering => exact ⟨_, stepByte_delim_recovering hf, rfl, rfl⟩

/-- Outside Escaped a delimiter leaves `(Normal, 0)`. -/
theorem stepByte_delim_normal {s : State} (hw : s.wr ≤ cap) (hf : s.fstate ≠ .escaped) :
    ∃ t, stepByte delim s = .next t ∧ t.fstate = .normal ∧ t.wr = 0 := by
  obtain ⟨t, ht, htw, htf⟩ := stepByte_delim_goesOn hw
  exact ⟨t, ht, htf.trans (FState.afterDelim_of_ne_escaped hf), htw⟩

/-! ### Only the escape marker leads to Escaped -/

theorem append_fstate_ne_escaped (v : Byte) (s : State) : (append v s).fstate ≠ .escaped := by
  by_cases hw : s.wr < cap
  · rw [append_of_lt v hw]; exact nofun
  · rw [append_of_full v hw]; exact nofun

theorem execNEnd_fstate_ne_escaped {s t : State} (h : execNEnd s = .next t) :
    t.fstate ≠ .escaped := by
  rcases Nat.lt_or_ge cap s.wr with hw | hw
  · cases (execNEnd_of_lt hw).symm.trans h
  · cases (execNEnd_of_le hw).symm.trans h
    exact nofun

theorem stepByte_fstate_ne_escaped {b : Byte} {s t : State} (h : stepByte b s = .next t)
    (hb : b ≠ esc) : t.fstate ≠ .escaped := by
  rcases stepByte_cases b s with ⟨-, -, hs⟩ | ⟨-, hesc, -⟩ | ⟨-, -, -, hs⟩ | ⟨-, -, hs⟩ |
    ⟨-, -, hs⟩ | ⟨-, -, -, hs⟩ | ⟨-, -, hs⟩ | ⟨hf, -, hs⟩
  · exact execNEnd_fstate_ne_escaped (hs.symm.trans h)
  · exact absurd hesc hb
  · cases hs.symm.trans h; exact append_fstate_ne_escaped b s
  · cases hs.symm.trans h; exact append_fstate_ne_escaped delim s
  · cases hs.symm.trans h; exact append_fstate_ne_escaped esc s
  · cases hs.symm.trans h; exact nofun
  · cases hs.symm.trans h; exact nofun
  · cases hs.symm.trans h; rw [hf]; exact nofun

/-- A byte sequence runs to its end wherever `WR` is at most the capacity, and keeps it so. -/
theorem process_goesOn (bytes : List Byte) {s : State} (hw : s.wr ≤ cap) :
    ∃ t, process bytes s = .next t ∧ t.wr ≤ cap := by
  induction bytes generalizing s with
  | nil => exact ⟨s, rfl, hw⟩
  | cons b bytes ih =>
    obtain ⟨m, hm, hstep⟩ := stepByte_goesOn b hw
    obtain ⟨t, ht, htw⟩ := ih (hstep.wr_le hw)
    exact ⟨t, by rw [process_cons, hm, andThen_of_next, ht], htw⟩

/-- A sequence that does not end in the escape marker does not end in Escaped. -/
theorem process_fstate_ne_escaped {bytes : List Byte} {s t : State} (h : process bytes s = .next t)
    (hs : s.fstate ≠ .escaped) (hlast : ∀ before, bytes ≠ before ++ [esc]) :
    t.fstate ≠ .escaped := by
  rcases List.eq_nil_or_concat' bytes with rfl | ⟨before, b, rfl⟩
  · cases h
    exact hs
  · rw [process_append] at h
    obtain ⟨m, -, hm⟩ := andThen_next h
    rw [process_singleton] at hm
    exact stepByte_fstate_ne_escaped hm fun hb => hlast before (by rw [hb])

/-- Settles O8: a byte sequence without a loose escape marker does not end in one, so that the
delimiter after it does not fall in Escaped. -/
theorem delimiterEndsInNormal : Obligations.DelimiterEndsInNormal := by
  refine ⟨fun s hw => ?_, fun s hw => ?_, fun bytes s hf hw hesc => ?_⟩
  · obtain ⟨t, ht, htw, htf⟩ := stepByte_delim_goesOn hw
    refine ⟨t, ht, htw, fun h => ?_, fun h => ?_, fun h => ?_⟩ <;> rw [htf, h] <;> rfl
  · obtain ⟨m, hm, hmw, hmf⟩ := stepByte_delim_goesOn hw
    obtain ⟨t, ht, hend⟩ := stepByte_delim_normal (s := m) (by rw [hmw]; exact Nat.zero_le _)
      (by rw [hmf]; exact FState.afterDelim_ne_escaped _)
    refine ⟨t, ?_, hend⟩
    calc process [delim, delim] s
      _ = process [delim] m := by rw [process_cons, hm, andThen_of_next]
      _ = stepByte delim m := process_singleton delim m
      _ = .next t := ht
  · obtain ⟨m, hm, hmw⟩ := process_goesOn bytes hw
    have hlast : ∀ before, bytes ≠ before ++ [esc] := fun before hb => by
      obtain ⟨c, rest, hnil, -⟩ := hesc before [] hb
      exact List.cons_ne_nil c rest hnil.symm
    obtain ⟨t, ht, hend⟩ := stepByte_delim_normal hmw (process_fstate_ne_escaped hm hf hlast)
    refine ⟨t, ?_, hend⟩
    calc process (bytes ++ [delim]) s
      _ = process [delim] m := process_append_of_next hm
      _ = stepByte delim m := process_singleton delim m
      _ = .next t := ht

/-! ### The step and the queue -/

theorem step_of_pending_byte {s : State} {b : Byte} {moves : List HostMove}
    (h : s.pending = .byte b :: moves) : step s = stepByte b (s.setPending moves) :=
  step_of_pending_cons h

/-- Settles O4, one case per kind of pending move. -/
theorem stepRunsTheDecodedInstruction : Obligations.StepRunsTheDecodedInstruction := fun _ =>
  ⟨fun _ _ => step_of_pending_byte, fun _ => step_of_pending_cons, fun _ => step_of_pending_cons,
    step_of_pending_nil⟩

theorem append_setPending (v : Byte) (s : State) (moves : List HostMove) :
    append v (s.setPending moves) = (append v s).setPending moves := by
  by_cases hw : s.wr < cap
  · rw [append_of_lt v hw]
    exact append_of_lt v hw
  · rw [append_of_full v hw]
    exact append_of_full v hw

theorem execNEnd_setPending (s : State) (moves : List HostMove) :
    execNEnd (s.setPending moves) =
      andThen (execNEnd s) fun t => .next (t.setPending moves) := by
  rcases Nat.lt_or_ge cap s.wr with hw | hw
  · rw [execNEnd_of_lt hw]
    exact execNEnd_of_lt hw
  · rw [execNEnd_of_le hw]
    exact execNEnd_of_le hw

/-- The step of a byte neither reads nor writes the host's further moves. -/
theorem stepByte_setPending (b : Byte) (s : State) (moves : List HostMove) :
    stepByte b (s.setPending moves) =
      andThen (stepByte b s) fun t => .next (t.setPending moves) := by
  rw [stepByte, stepByte, State.setPending_fstate]
  cases s.fstate with
  | normal =>
    rw [decodeSymbol_normal]
    split_ifs
    · exact execNEnd_setPending s moves
    · rfl
    · exact congrArg Host.Outcome.next (append_setPending b s moves)
  | escaped =>
    rw [decodeSymbol_escaped]
    split_ifs
    · exact congrArg Host.Outcome.next (append_setPending delim s moves)
    · exact congrArg Host.Outcome.next (append_setPending esc s moves)
    · rfl
  | recovering =>
    rw [decodeSymbol_recovering]
    split_ifs <;> rfl

/-- Settles O10, by induction on the bytes: a step takes one of them, and what it does is independent
of those still queued. -/
theorem queuedBytesRunAsProcess : Obligations.QueuedBytesRunAsProcess := by
  intro bytes
  induction bytes with
  | nil => exact fun s hp => congrArg Host.Outcome.next (congrArg s.setPending hp)
  | cons b bytes ih =>
    intro s hp
    rw [List.length_cons, runSteps, step_of_pending_byte hp, process_cons, stepByte_setPending b s [],
      stepByte_setPending]
    cases stepByte b s with
    | next t => exact ih (t.setPending _) rfl
    | fault r => rfl
    | refused r => rfl

end Sys2Proof.Machine
end

section
/-! PROOFS. The command decoder: what it emits (rules R81, R83, R88) and what it depends on (rule
R86). -/

namespace Sys2Proof.Machine

variable {s t : State}

/-! ### What the decoder is given and what it does -/

/-- The opcode is the byte at offset 0 (rule R50). -/
theorem State.frame_cons (h : 1 ≤ s.wr) :
    s.frame = memRead1 s 0 :: memReadBlock s 1 (s.wr - 1) := by
  obtain ⟨n, hn⟩ := Nat.exists_eq_add_of_le' h
  rw [State.frame, hn, memReadBlock_succ, Nat.zero_add, Nat.add_sub_cancel]

theorem assigned_iff_mem {op : Byte} :
    assigned op ↔ op ∈ ([0xFB, 0xFC, 0xFD, 0xFE, 0xFF] : List Byte) := by
  simp only [assigned, opRectangle, opText, opWaveform, opJoypad, opSystem, List.mem_cons,
    List.not_mem_nil, or_false]
  tauto

theorem State.command_congr (hw : s.wr = t.wr) (h : ∀ a, a < s.wr → memRead1 s a = memRead1 t a)
    (hp : s.params = t.params) : s.command = t.command := by
  rw [State.command, State.command, hp, State.frame_congr hw h]

theorem runDecoder_of_le (h : s.wr ≤ cap) : runDecoder s = .next (s.afterFrame s.command) :=
  (runDecoder_eq_exec h).trans (exec_frame (decodeFrame_isFrame _ _) s)

theorem emit_emits (e : Event) (s : State) : Emits e s (s.emit e) where
  trace := rfl
  fstate := rfl
  wr := rfl
  bytes := sameBytes_of_buf_eq rfl
  lc := rfl
  outside := ⟨rfl, rfl⟩

/-! ### The one command that emits nothing -/

theorem decodeFrame_eq_jpad3_iff {cfg : Config} {p : List Byte} {j0 j1 : Byte} :
    decodeFrame cfg p = .jpad3 j0 j1 ↔ p = [opJoypad, j0, j1] := by
  constructor
  · intro h
    have hcode : encode cfg (.jpad3 j0 j1) = .frame p := h ▸ encode_decodeFrame cfg p
    exact (Code.frame.inj hcode).symm
  · rintro rfl
    rfl

theorem State.command_jpad3_iff :
    (∃ j0 j1, s.command = .jpad3 j0 j1) ↔ s.wr = 3 ∧ memRead1 s 0 = opJoypad := by
  simp only [State.command, decodeFrame_eq_jpad3_iff]
  constructor
  · rintro ⟨j0, j1, hframe⟩
    have hwr : s.wr = 3 := by simpa using congrArg List.length hframe
    rw [State.frame_cons (by omega)] at hframe
    exact ⟨hwr, (List.cons.inj hframe).1⟩
  · rintro ⟨hwr, hop⟩
    refine ⟨memRead1 s 1, memRead1 s 2, ?_⟩
    rw [State.frame_cons (by omega), hop, hwr]
    rfl

theorem event_eq_none_iff {i : Instr} (hf : i.isFrame = true) (c : Color) :
    i.event c = none ↔ ∃ j0 j1, i = .jpad3 j0 j1 := by
  constructor
  · intro h
    cases i
    case jpad3 j0 j1 => exact ⟨j0, j1, rfl⟩
    case nEnd | nEsc | nData | eDelim | eEsc | eBad | rEnd | rSkip => cases hf
    all_goals cases h
  · rintro ⟨j0, j1, rfl⟩
    rfl

/-! ### The obligations -/

/-- Settles O38: the frame has no byte, and the fault of `EMPTY` has no state change. -/
theorem emptyFrameIsReported : Obligations.EmptyFrameIsReported :=
  ⟨fun s hw => congrArg (decodeFrame s.params) (frame_of_wr_zero hw),
    fun s => ⟨_, rfl, emit_emits _ s⟩⟩

/-- Settles O39: an unassigned opcode selects no family, and the fault of `UNKNOWN` has no state
change. -/
theorem unknownOpcodeIsReported : Obligations.UnknownOpcodeIsReported := by
  refine ⟨fun s hw hop => ?_, fun op rest s => ⟨_, rfl, emit_emits _ s⟩⟩
  rw [State.frame_cons hw, decodeFrame_unassigned _ _ (mt assigned_iff_mem.mp hop)]

/-- Settles O41: only `JPAD3` has no event, and only a 3-byte frame of opcode 0xFB decodes to it. -/
theorem frameEmitsOneEventUnlessJoypad : Obligations.FrameEmitsOneEventUnlessJoypad := by
  intro s hw
  have hsilent : s.command.event s.lc = none ↔ s.wr = 3 ∧ memRead1 s 0 = 0xFB :=
    (event_eq_none_iff (decodeFrame_isFrame _ _) s.lc).trans State.command_jpad3_iff
  refine ⟨_, runDecoder_of_le hw, ?_⟩
  split_ifs with hj
  · rw [State.afterFrame_trace, hsilent.mpr hj, Option.toList_none, List.append_nil]
  · obtain ⟨e, he⟩ := Option.ne_none_iff_exists'.mp (mt hsilent.mp hj)
    exact ⟨e, by rw [State.afterFrame_trace, he, Option.toList_some]⟩

/-- Settles O42: both states decode the same command, whose event and colour depend on Last Color
alone. -/
theorem decoderDependsOnFrameAndColorAlone : Obligations.DecoderDependsOnFrameAndColorAlone := by
  intro s t hw hwr hbytes hlc hparams
  have hcommand : s.command = t.command := State.command_congr hwr hbytes hparams
  refine ⟨_, _, s.command.event s.lc, runDecoder_of_le hw, runDecoder_of_le (hwr ▸ hw), rfl, ?_, ?_,
    rfl, rfl, sameBytes_of_buf_eq rfl, rfl, rfl⟩
  · rw [State.afterFrame_trace, hcommand, hlc]
  · rw [State.afterFrame_lc, State.afterFrame_lc, hcommand, hlc]

end Sys2Proof.Machine
end

section
/-! PROOFS. The Rectangle commands (rules R90 to R92), the assigned opcodes with a length not accepted for
them (rules R93, R96, R101, R106, R111), and Last Color over a stream (rule R94). -/

namespace Sys2Proof.Machine

variable {s u v : State}

/-! ### A frame of a known opcode and length -/

theorem State.frame_of_opcode {op : Byte} (hw : 1 ≤ s.wr) (hop : memRead1 s 0 = op) :
    s.frame = op :: memReadBlock s 1 (s.wr - 1) := by
  rw [State.frame_cons hw, hop]

/-- The length a diagnostic reports: the opcode and the bytes after it. -/
theorem one_add_length_memReadBlock (hw : 1 ≤ s.wr) :
    1 + (memReadBlock s 1 (s.wr - 1)).length = s.wr := by
  rw [memReadBlock_length, Nat.add_sub_of_le hw]

theorem decodeFrame_rectangle_of_wr {n : Nat} (hw : s.wr = n + 1) (hop : memRead1 s 0 = opRectangle) :
    decodeFrame s.params s.frame = decodeRect s.params (memReadBlock s 1 n) := by
  rw [State.frame_of_opcode (by omega) hop, decodeFrame_rectangle, hw, Nat.add_sub_cancel]

/-- Rule R91: the byte no field covers is the one at offset 8 or at offset 5. -/
theorem decodeRect_nine (cfg : Config) (s : State) :
    ∃ pad, decodeRect cfg (memReadBlock s 1 8) = .rect9 (memRead2 s 1) (memRead2 s 3)
      (memRead1 s cfg.rect9RgbBase.offset) (memRead1 s (cfg.rect9RgbBase.offset + 1))
      (memRead1 s (cfg.rect9RgbBase.offset + 2)) pad := by
  cases hbase : cfg.rect9RgbBase with
  | five =>
    refine ⟨memRead1 s 8, ?_⟩
    simp [decodeRect, memReadBlock_succ, hbase, memRead2, RgbBase.offset]
  | six =>
    refine ⟨memRead1 s 5, ?_⟩
    simp [decodeRect, memReadBlock_succ, hbase, memRead2, RgbBase.offset]

/-! ### What a rectangle and a rejected length change and leave -/

theorem drawColored_emitsColored (x y w h : Half) (r g b : Byte) (s : State) :
    EmitsColored (.rect x y w h r g b) ⟨r, g, b⟩ s (drawColored x y w h r g b s) where
  trace := rfl
  lc := rfl
  fstate := rfl
  wr := rfl
  bytes := sameBytes_of_buf_eq rfl
  outside := ⟨rfl, rfl⟩

theorem malformedLength_emits (op : Option Byte) (len : Nat) (s : State) :
    Emits (.diag (.malformedLength op len)) s (raise (.malformedLength op len) s) := by
  rw [raise_malformedLength]
  exact emit_emits _ s

/-! ### Last Color over a list of frames -/

/-- Each command hands on the colour it sets, or the one before it. -/
theorem runPayloads_lc (ps : List (List Byte)) (h : runPayloads ps u = .next v) :
    v.lc = colorAfter u.params ps u.lc := by
  induction ps generalizing u with
  | nil =>
    obtain rfl : u = v := Host.Outcome.next.inj h
    rfl
  | cons p ps ih =>
    rw [runPayloads_cons] at h
    exact ih h

/-! ### The obligations -/

/-- Settles O13: each frame is the encoding of its instruction, which decodes to it. -/
theorem exampleFramesDecode : Obligations.ExampleFramesDecode :=
  have hdecode := decodeOfEncodeIsTheInstruction .default
  ⟨hdecode (.rect12 5 6 7 8 10 20 30) rfl, hdecode (.rect9 4660 65535 0xAA 0xBB 0xCC 0x77) rfl,
    hdecode (.rect5 1 2) rfl, hdecode (.text12 0x41 16 288 255 128 0 0x11 0x22 0x33) rfl,
    hdecode (.wave 1 2 3 [0x99]) rfl, hdecode (.sys 1 2 3 4 5 []) rfl⟩

/-- Settles O31: the eleven bytes after the opcode are the fields in order. -/
theorem rect12DrawsAndSetsLastColor : Obligations.Rect12DrawsAndSetsLastColor :=
  ⟨fun _ hw hop => (decodeFrame_rectangle_of_wr hw hop).trans rfl,
    fun x y w h r g b s => ⟨_, rfl, drawColored_emitsColored x y w h r g b s⟩⟩

/-- Settles O32, for each position of the colour. -/
theorem rect9DrawsAndSetsLastColor : Obligations.Rect9DrawsAndSetsLastColor := by
  refine ⟨fun s hw hop => ?_, rfl, fun x y r g b _ s =>
    ⟨_, rfl, drawColored_emitsColored x y unitSize unitSize r g b s⟩⟩
  rw [decodeFrame_rectangle_of_wr hw hop]
  exact decodeRect_nine s.params s

/-- Settles O33: the event takes its colour from Last Color, and only the trace is written. -/
theorem rect5DrawsInLastColor : Obligations.Rect5DrawsInLastColor :=
  ⟨fun _ hw hop => (decodeFrame_rectangle_of_wr hw hop).trans rfl,
    fun _ _ s => ⟨_, rfl, emit_emits _ s⟩⟩

/-- Settles O40: the opcode selects the family, whose decoder rejects the length; the fault of each
rejection has no state change. -/
theorem unacceptedLengthsAreReportedAndDropped : Obligations.UnacceptedLengthsAreReportedAndDropped := by
  refine ⟨fun s hw => ?_, fun rest s => ?_⟩
  · have hlen := one_add_length_memReadBlock hw
    refine ⟨fun hop h5 h9 h12 => ?_, fun hop h12 => ?_, fun hop hbad => ?_, fun hop h3 => ?_,
      fun hop hshort => ?_⟩ <;> rw [State.frame_of_opcode hw hop]
    · exact decodeRect_of_length (by rw [hlen]; exact ⟨h5, h9, h12⟩)
    · exact decodeText_of_length (by rw [hlen]; exact h12)
    · exact decodeWave_of_length (by rw [hlen]; exact hbad)
    · exact decodeJpad_of_length (by rw [hlen]; exact h3)
    · exact decodeSys_of_length (by rw [hlen]; exact hshort)
  · exact ⟨⟨_, rfl, malformedLength_emits _ _ s⟩, ⟨_, rfl, malformedLength_emits _ _ s⟩,
      ⟨_, rfl, malformedLength_emits _ _ s⟩, ⟨_, rfl, malformedLength_emits _ _ s⟩,
      ⟨_, rfl, malformedLength_emits _ _ s⟩⟩

/-- Settles O44: the stream leaves the Last Color that its frames, given to the decoder directly,
leave. -/
theorem lastColorFollowsTheLastColoredFrame : Obligations.LastColorFollowsTheLastColoredFrame := by
  intro ps s hps h hw
  obtain ⟨t, v, ht, hv, hend⟩ := process_wireStream ps hps h hw ⟨rfl, rfl, rfl⟩
  exact ⟨t, ht, hend.output.lc.trans (runPayloads_lc ps hv)⟩

end Sys2Proof.Machine
end

section
/-! PROOFS. The Text command (rule R95). -/

namespace Sys2Proof.Machine

/-- The eleven bytes after the opcode are the fields in order, and the three ignored bytes. -/
theorem decodeText_eleven (s : State) :
    decodeText (memReadBlock s 1 11) = .text12 (memRead1 s 1) (memRead2 s 2) (memRead2 s 4)
      (memRead1 s 6) (memRead1 s 7) (memRead1 s 8) (memRead1 s 9) (memRead1 s 10) (memRead1 s 11) := by
  simp [decodeText, memReadBlock_succ, memRead2]

theorem exec_text12_emits (c : Byte) (x y : Half) (r g b t0 t1 t2 : Byte) (s : State) :
    ∃ t, exec (.text12 c x y r g b t0 t1 t2) s = .next t ∧ Emits (.text c x y r g b) s t :=
  ⟨s.emit (.text c x y r g b), rfl, emit_emits _ s⟩

/-- Settles O34: the opcode and the length select the one Text shape, whose meaning is the emission
of its event. -/
theorem text12DrawsOneGlyph : Obligations.Text12DrawsOneGlyph := by
  refine ⟨fun s hw hop => ?_, exec_text12_emits⟩
  have hframe : s.frame = opText :: memReadBlock s 1 11 := by
    rw [State.frame_of_opcode (by omega) hop, hw]
    rfl
  rw [hframe, decodeFrame_text, decodeText_eleven]

end Sys2Proof.Machine
end

section
/-! PROOFS. The Waveform command (rule R100). -/

namespace Sys2Proof.Machine

/-- The three bytes after the opcode are the parameters, and all bytes after them the block. -/
theorem decodeWave_block {n : Nat} (hn : n ≤ waveMax) (s : State) :
    decodeWave (memReadBlock s 1 (n + 3)) =
      .wave (memRead1 s 1) (memRead1 s 2) (memRead1 s 3) (memReadBlock s 4 n) := by
  rw [memReadBlock_succ, memReadBlock_succ, memReadBlock_succ]
  exact if_pos ((memReadBlock_length s 4 n).trans_le hn)

theorem exec_wave_emits (p1 p2 p3 : Byte) (samples : List Byte) (s : State) :
    ∃ t, exec (.wave p1 p2 p3 samples) s = .next t ∧ Emits (.wave p1 p2 p3 samples) s t :=
  ⟨s.emit (.wave p1 p2 p3 samples), rfl, emit_emits _ s⟩

/-- Settles O35: a length of 4 to 324 leaves a block of at most `WAVE_MAX` bytes after the opcode and
the parameters, and the meaning of `WAVE` is the emission of its event. -/
theorem wavePassesItsBlockThrough : Obligations.WavePassesItsBlockThrough := by
  refine ⟨fun s hmin hmax hop => ?_, exec_wave_emits⟩
  have hblock : s.wr - 4 ≤ waveMax := Nat.sub_le_of_le_add hmax
  have hframe : s.frame = opWaveform :: memReadBlock s 1 (s.wr - 4 + 3) := by
    rw [State.frame_of_opcode (by omega) hop, show s.wr - 1 = s.wr - 4 + 3 by omega]
    rfl
  rw [hframe, decodeFrame_waveform, decodeWave_block hblock]

end Sys2Proof.Machine
end

section
/-! PROOFS. The Joypad command (rule R105). -/

namespace Sys2Proof.Machine

theorem exec_jpad3 (j0 j1 : Byte) (s : State) : exec (.jpad3 j0 j1) s = .next s := rfl

/-- Settles O36: a frame of length 3 is its opcode and two bytes, the one payload that decodes to
`JPAD3`, whose meaning goes on to the state it was given. -/
theorem jpad3ChangesNothing : Obligations.Jpad3ChangesNothing := by
  refine ⟨fun s hw hop => ?_, exec_jpad3⟩
  have hframe : s.frame = [opJoypad, memRead1 s 1, memRead1 s 2] := by
    rw [State.frame_of_opcode (by omega) hop, hw]
    rfl
  exact decodeFrame_eq_jpad3_iff.mpr hframe

end Sys2Proof.Machine
end

section
/-! PROOFS. The System command (rule R110). -/

namespace Sys2Proof.Machine

/-- Where the length is accepted, the fifth byte after the opcode is the font index; the four before
it and all after it are the ignored operands. -/
theorem decodeSys_block {cfg : Config} {n : Nat} (hn : cfg.sysLen ≤ 6 + n) (s : State) :
    decodeSys cfg (memReadBlock s 1 (n + 5)) = .sys (memRead1 s 1) (memRead1 s 2) (memRead1 s 3)
      (memRead1 s 4) (memRead1 s 5) (memReadBlock s 6 n) := by
  have hlen : cfg.sysLen ≤ 6 + (memReadBlock s 6 n).length := by rwa [memReadBlock_length]
  iterate 5 rw [memReadBlock_succ]
  exact if_pos hlen

theorem exec_sys_emits (a1 a2 a3 a4 f : Byte) (tail : List Byte) (s : State) :
    ∃ t, exec (.sys a1 a2 a3 a4 f tail) s = .next t ∧ Emits (.font f) s t :=
  ⟨s.emit (.font f), rfl, emit_emits _ s⟩

/-- Settles O37: an accepted length leaves at least five bytes after the opcode, and the meaning of
`SYS` is the emission of its event. -/
theorem sysSetsTheFont : Obligations.SysSetsTheFont := by
  refine ⟨fun s hlen hop => ?_, rfl, exec_sys_emits⟩
  have hwr : s.wr = 6 + (s.wr - 6) := (Nat.add_sub_of_le (le_of_max_le_left hlen)).symm
  have hframe : s.frame = opSystem :: memReadBlock s 1 (s.wr - 6 + 5) := by
    rw [State.frame_of_opcode (by omega) hop, show s.wr - 1 = s.wr - 6 + 5 by omega]
    rfl
  rw [hframe, decodeFrame_system]
  exact ⟨_, _, _, _, _, decodeSys_block (hlen.trans_eq hwr) s⟩

end Sys2Proof.Machine
end

section
/-! PROOFS. Exceptions: no move of the host stops a legal block (rule R120), and the way out of
Recovering (rules R68, R127, R131). -/

namespace Sys2Proof.Machine

/-! ### Progress -/

theorem takeMove_goesOn (m : HostMove) {s : State} (hw : s.wr ≤ cap) : GoesOn (takeMove m s) := by
  cases m with
  | byte b =>
    obtain ⟨t, ht, -⟩ := stepByte_goesOn b hw
    exact ⟨t, ht⟩
  | softReset => exact ⟨softReset s, rfl⟩
  | hardReset => exact ⟨hardReset s, rfl⟩

/-- Of the invariant, (a) of rule R25 alone is what progress needs. -/
theorem step_goesOn {s : State} (hw : s.wr ≤ cap) : GoesOn (step s) := by
  cases hp : s.pending with
  | nil => exact ⟨s, step_of_pending_nil hp⟩
  | cons m moves =>
    rw [step_of_pending_cons hp]
    exact takeMove_goesOn m hw

/-- Settles O6: a legal state has `WR` at most the capacity, where the next pending move goes on. -/
theorem legalStatesNeverStop : Obligations.LegalStatesNeverStop := fun _ hs => step_goesOn hs.cursor

/-! ### The way out of Recovering -/

theorem stepByte_skip {b : Byte} {s : State} (hf : s.fstate = .recovering) (hb : b ≠ delim) :
    stepByte b s = .next s := by
  rw [stepByte, hf, decodeSymbol_rSkip hb]
  rfl

theorem process_skip {bytes : List Byte} {s : State} (hf : s.fstate = .recovering)
    (hbytes : delim ∉ bytes) : process bytes s = .next s := by
  induction bytes with
  | nil => rfl
  | cons b bytes ih =>
    have hb : b ≠ delim := (List.ne_of_not_mem_cons hbytes).symm
    rw [process_cons, stepByte_skip hf hb, andThen_of_next, ih (List.not_mem_of_not_mem_cons hbytes)]

/-- Settles O28: the discarded bytes leave the state as it was, in which the delimiter recovers. -/
theorem recoveryDiscardsUpToTheDelimiter : Obligations.RecoveryDiscardsUpToTheDelimiter := by
  intro bytes s hf hbytes
  have hskip : process bytes s = .next s := process_skip hf hbytes
  refine ⟨hskip, recover s, ?_, raise_reportsAndClears rfl rfl⟩
  calc process (bytes ++ [delim]) s
    _ = process [delim] s := process_append_of_next hskip
    _ = stepByte delim s := process_singleton delim s
    _ = .next (recover s) := stepByte_delim_recovering hf

end Sys2Proof.Machine
end

section
/-! PROOFS. The hardware reset (rules R140, R142): the operation, the state power-on leaves, and the
cycle in which `rst` is 1. -/

namespace Sys2Proof.Machine

@[simp] theorem takeMove_hardReset (s : State) : takeMove .hardReset s = .next (hardReset s) := rfl

/-- What `hw_reset()` sets, with `LC` initialised under either value of SOFT_RESET_CLEARS_COLOR, and
its frame: each of its four writes leaves all other fields alone. -/
theorem hardReset_initialises (s : State) :
    (hardReset s).fstate = .normal ∧ (hardReset s).wr = 0 ∧
      (hardReset s).lc = s.params.lastColorReset ∧ (hardReset s).trace = [] ∧
      SameBytes s (hardReset s) ∧ SameOutside s (hardReset s) :=
  ⟨rfl, rfl, rfl, rfl, sameBytes_of_buf_eq rfl, ⟨rfl, rfl⟩⟩

/-- Settles O1: the move and the cycle with `rst` both perform `hardReset`, and the state after
power-on is written with the same values. -/
theorem hardwareResetInitialisesTheBlock : Obligations.HardwareResetInitialisesTheBlock :=
  ⟨fun s => ⟨hardReset s, takeMove_hardReset s, hardReset_initialises s⟩,
    fun _ => ⟨rfl, rfl, rfl, rfl⟩,
    fun _ σ hrst => ⟨_, cycle_hardReset hrst, takeMove_hardReset σ.core, rfl, rfl⟩⟩

end Sys2Proof.Machine
end
